-- ==== Sys2Proof/Word.lean ====
section
/-! DEFINITION. The plain data types every layer shares: the header word, a command as the host hands it over, the
five classes and the two non-finite kinds, and text as the host adaptor reads and writes it. -/

namespace Sys2Proof

/-- The 32-bit header word of a command (30_encoding.md R51). -/
abbrev Header := BitVec 32

/-- A command as the host hands it to the block, whole: a header and two operand slots, each an unbounded integer
(30_encoding.md R50, R52; 00_scope.md R15). -/
structure Command where
  hdr : Header
  a : Int
  b : Int
  deriving DecidableEq, Repr

/-- The kind of a non-finite input, header bit `K` (30_encoding.md R51): 0 INFINITY, 1 NAN. -/
inductive NonFinite where
  | infinity
  | nan
  deriving DecidableEq, Repr

/-- The closed set of classifications (42_classifier.md R120). -/
inductive Class where
  | zero
  | subnormal
  | normal
  | infinity
  | nan
  deriving DecidableEq, Repr

/-- Text on the host's side of the interface, as a list of characters (45_host_text.md). -/
abbrev Text := List Char

/-- A bit as the natural number 0 or 1. -/
def bitOf (x : Bool) : Nat := if x then 1 else 0

end Sys2Proof
end

