-- ==== Sys2Proof/Syntax.lean ====
section
/-! DEFINITION. The ten commands of spec/opcode_table.json, one constructor per row, each with the header fields and the
operand slots 30_encoding.md R56 gives it. -/

namespace Sys2Proof

/-- A decoded command. The header bit `S` is `true` for negative. `p` is the preset id `hdr[12:10]`. Operands are the
slots' integers as they stand: their ranges are the command's own checks (30_encoding.md R57). -/
inductive Instr where
  /-- FMT.CUSTOM (40_format.md R81): A = E, B = M. -/
  | fmtCustom (e m : Int)
  /-- FMT.PRESET (40_format.md R83): P = preset id. -/
  | fmtPreset (p : Nat)
  /-- FMT.QUERY (40_format.md R86). -/
  | fmtQuery
  /-- CLASSIFY (42_classifier.md R122): A = ef, B = sf. -/
  | classify (s : Bool) (ef sf : Int)
  /-- SPLIT (41_bitlayout.md R101): A = bits. -/
  | split (bits : Int)
  /-- PACK (41_bitlayout.md R102): A = ef, B = sf. -/
  | pack (s : Bool) (ef sf : Int)
  /-- DECODE (43_decoder.md R134): A = bits. -/
  | decode (bits : Int)
  /-- ENCODE.RAT (44_encoder.md R160): A = num, B = den. -/
  | encodeRat (s : Bool) (num den : Int)
  /-- ENCODE.DEC (44_encoder.md R161): A = digits, B = exp10. -/
  | encodeDec (s : Bool) (digits exp10 : Int)
  /-- ENCODE.NF (44_encoder.md R162): K = kind. -/
  | encodeNf (s : Bool) (k : NonFinite)
  deriving DecidableEq, Repr

end Sys2Proof
end

