-- ==== Sys2Proof/WellFormed.lean ====
section
/-! DEFINITION. When a command as syntax is one a header can carry. The only field that can be out of range is the
preset id, which has 3 bits (30_encoding.md R51). Operand slots are unbounded integers (R52), so no operand is ill
formed: an operand outside its range is a response of the command, not an ill-formed command (R57). -/

namespace Sys2Proof

/-- The command can be encoded: its preset id fits `hdr[12:10]`. -/
def Instr.wf : Instr → Bool
  | .fmtCustom _ _ => true
  | .fmtPreset p => decide (p < 8)
  | .fmtQuery => true
  | .classify _ _ _ => true
  | .split _ => true
  | .pack _ _ _ => true
  | .decode _ => true
  | .encodeRat _ _ _ => true
  | .encodeDec _ _ _ => true
  | .encodeNf _ _ => true

end Sys2Proof
end

