-- ==== Sys2Proof/Decode.lean ====
section
/-! DEFINITION. The header decoder of 30_encoding.md R54, total on every 32-bit header and rejecting by name, the opcode
table of R56, and after it the encoder. -/

namespace Sys2Proof

/-! ## Header fields (30_encoding.md R51) -/

/-- `OPC = hdr[7:0]`. -/
def opcField (h : Header) : Nat := (h.extractLsb' 0 8).toNat

/-- `S = hdr[8]`. -/
def signField (h : Header) : Bool := h.getLsbD 8

/-- `K = hdr[9]`. -/
def kindField (h : Header) : NonFinite := if h.getLsbD 9 then .nan else .infinity

/-- `P = hdr[12:10]`. -/
def presetField (h : Header) : Nat := (h.extractLsb' 10 3).toNat

/-- `RSV = hdr[31:13]`. -/
def reservedField (h : Header) : Nat := (h.extractLsb' 13 19).toNat

/-! ## The opcode table (30_encoding.md R56, opcode_table.json) -/

/-- One row of the opcode table: a header matches the row when `hdr & mask = pattern`. -/
structure OpcodeRow where
  mnemonic : String
  pattern : Header
  mask : Header
  deriving DecidableEq, Repr

/-- The ten rows of opcode_table.json, in its order. -/
def opcodeTable : List OpcodeRow :=
  [ ⟨"FMT.CUSTOM", 0x00000001, 0xFFFFFFFF⟩,
    ⟨"FMT.PRESET", 0x00000002, 0xFFFFE3FF⟩,
    ⟨"FMT.QUERY", 0x00000003, 0xFFFFFFFF⟩,
    ⟨"CLASSIFY", 0x00000010, 0xFFFFFEFF⟩,
    ⟨"SPLIT", 0x00000011, 0xFFFFFFFF⟩,
    ⟨"PACK", 0x00000012, 0xFFFFFEFF⟩,
    ⟨"DECODE", 0x00000020, 0xFFFFFFFF⟩,
    ⟨"ENCODE.RAT", 0x00000030, 0xFFFFFEFF⟩,
    ⟨"ENCODE.DEC", 0x00000031, 0xFFFFFEFF⟩,
    ⟨"ENCODE.NF", 0x00000032, 0xFFFFFCFF⟩ ]

/-- A header matches a row (30_encoding.md R56). -/
def OpcodeRow.accepts (r : OpcodeRow) (h : Header) : Bool := h &&& r.mask == r.pattern

/-! ## The decoder (30_encoding.md R54) -/

/-- Why the decoder rejects a header. Each is the status IllegalCommand (R54, R58, R238): which of the three it was is not
part of the response. -/
inductive Reject where
  /-- `hdr[7:0]` is no opcode of R55. -/
  | unknownOpcode
  /-- `hdr[31:13]` is not 0. -/
  | reservedBits
  /-- A field of S, K, P that the opcode does not use is not 0. -/
  | unusedField
  deriving DecidableEq, Repr

/-- The outcome of decoding a command. -/
inductive Decoded where
  | command (i : Instr)
  | rejected (r : Reject)
  deriving DecidableEq, Repr

/-- The command a header's opcode names, with its operands taken from the header's fields and the slots R56 names for it.
A slot the row does not name is ignored (R52). -/
def fromOpcode (c : Command) : Option Instr :=
  match opcField c.hdr with
  | 0x01 => some (.fmtCustom c.a c.b)
  | 0x02 => some (.fmtPreset (presetField c.hdr))
  | 0x03 => some .fmtQuery
  | 0x10 => some (.classify (signField c.hdr) c.a c.b)
  | 0x11 => some (.split c.a)
  | 0x12 => some (.pack (signField c.hdr) c.a c.b)
  | 0x20 => some (.decode c.a)
  | 0x30 => some (.encodeRat (signField c.hdr) c.a c.b)
  | 0x31 => some (.encodeDec (signField c.hdr) c.a c.b)
  | 0x32 => some (.encodeNf (signField c.hdr) (kindField c.hdr))
  | _ => none

/-- Whether the command uses header field S (30_encoding.md R56). -/
def usesSign : Instr → Bool
  | .classify _ _ _ | .pack _ _ _ | .encodeRat _ _ _ | .encodeDec _ _ _ | .encodeNf _ _ => true
  | .fmtCustom _ _ | .fmtPreset _ | .fmtQuery | .split _ | .decode _ => false

/-- Whether the command uses header field K (30_encoding.md R56). -/
def usesKind : Instr → Bool
  | .encodeNf _ _ => true
  | .fmtCustom _ _ | .fmtPreset _ | .fmtQuery | .classify _ _ _ | .split _ | .pack _ _ _ | .decode _
  | .encodeRat _ _ _ | .encodeDec _ _ _ => false

/-- Whether the command uses header field P (30_encoding.md R56). -/
def usesPreset : Instr → Bool
  | .fmtPreset _ => true
  | .fmtCustom _ _ | .fmtQuery | .classify _ _ _ | .split _ | .pack _ _ _ | .decode _ | .encodeRat _ _ _
  | .encodeDec _ _ _ | .encodeNf _ _ => false

/-- A field of S, K, P that the command does not use is not 0 in the header (30_encoding.md R54). -/
def unusedFieldSet (i : Instr) (h : Header) : Bool :=
  (!usesSign i && signField h) || (!usesKind i && kindField h == .nan) || (!usesPreset i && presetField h != 0)

/-- `decodeHeader` of 30_encoding.md R54: the first failing check decides. -/
def decodeCommand (c : Command) : Decoded :=
  match fromOpcode c with
  | none => .rejected .unknownOpcode
  | some i =>
    if reservedField c.hdr ≠ 0 then .rejected .reservedBits
    else if unusedFieldSet i c.hdr then .rejected .unusedField
    else .command i

/-- The instruction the decoder reads from the `nbits`-bit table word `w`, with operand slots of 0 (log entry 11). A word
that does not fit a header is no command. -/
def decodeTableWord (nbits w : Nat) : Option Instr :=
  if nbits ≤ 32 ∧ w < 2 ^ 32 then
    match decodeCommand ⟨BitVec.ofNat 32 w, 0, 0⟩ with
    | .command i => some i
    | .rejected _ => none
  else none

/-! ## The encoder (30_encoding.md R51, R56) -/

/-- `hdr = RSV * 2^13 + P * 2^10 + K * 2^9 + S * 2^8 + OPC` with `RSV = 0` (30_encoding.md R51). -/
def headerWord (opc : Nat) (s : Bool) (k : NonFinite) (p : Nat) : Header :=
  BitVec.ofNat 32 (p * 2 ^ 10 + bitOf (k == .nan) * 2 ^ 9 + bitOf s * 2 ^ 8 + opc)

/-- The words of a command. A slot the command does not name carries 0. -/
def encode : Instr → Command
  | .fmtCustom e m => ⟨headerWord 0x01 false .infinity 0, e, m⟩
  | .fmtPreset p => ⟨headerWord 0x02 false .infinity p, 0, 0⟩
  | .fmtQuery => ⟨headerWord 0x03 false .infinity 0, 0, 0⟩
  | .classify s ef sf => ⟨headerWord 0x10 s .infinity 0, ef, sf⟩
  | .split bits => ⟨headerWord 0x11 false .infinity 0, bits, 0⟩
  | .pack s ef sf => ⟨headerWord 0x12 s .infinity 0, ef, sf⟩
  | .decode bits => ⟨headerWord 0x20 false .infinity 0, bits, 0⟩
  | .encodeRat s num den => ⟨headerWord 0x30 s .infinity 0, num, den⟩
  | .encodeDec s digits exp10 => ⟨headerWord 0x31 s .infinity 0, digits, exp10⟩
  | .encodeNf s k => ⟨headerWord 0x32 s k 0, 0, 0⟩

end Sys2Proof
end

