-- ==== Sys2Proof/Config.lean ====
section
/-! DEFINITION. The parameters of 00_scope.md R10 to R14 as plain data, their defaults, the constraints the spec puts on
them, and the free values of the model. -/

namespace Sys2Proof

/-- The parameters of the block. State carries them (log entry 3), so that a claim about every state is a claim about
every setting of them.

DESIGN CHOICE (log entry 5): `NAN_SIGNIFICAND`, a function of `M` in 00_scope.md R13, is given by the finite list of the
widths where it differs from its default `2^(M-1)`. -/
structure Config where
  /-- `MAX_TOTAL_BITS` (R10). -/
  maxTotalBits : Nat
  /-- `NEGZERO_IN` (R11). -/
  negzeroIn : Bool
  /-- `NONFINITE_ENABLE` (R12). -/
  nonfiniteEnable : Bool
  /-- `NAN_SIGNIFICAND` (R13): pairs `(M, value)`, the first entry for a width counts. -/
  nanSignificands : List (Nat × Nat)
  /-- `ENUM_SAMPLE_LIMIT` (R14). -/
  enumSampleLimit : Nat
  deriving DecidableEq, Repr

/-- The defaults of 00_scope.md R10 to R14. -/
def Config.default : Config :=
  { maxTotalBits := 4096, negzeroIn := true, nonfiniteEnable := false, nanSignificands := [], enumSampleLimit := 65536 }

/-- The constraints 00_scope.md R10, R13 and R14 put on the parameters: `MAX_TOTAL_BITS >= 64`, a NaN significand in
`1 .. 2^M - 1`, `ENUM_SAMPLE_LIMIT >= 1`. -/
abbrev Config.wf (c : Config) : Prop :=
  64 ≤ c.maxTotalBits ∧ (∀ p ∈ c.nanSignificands, 1 ≤ p.2 ∧ p.2 < 2 ^ p.1) ∧ 1 ≤ c.enumSampleLimit

/-- FREE VALUE (log entry 7): what `FMT.E` holds after the `n`-th reset event, which 70_reset_and_hazards.md R260 leaves
unspecified. -/
opaque Config.freeExponentWidth : Nat → Nat

/-- FREE VALUE (log entry 7): what `FMT.M` holds after the `n`-th reset event, which 70_reset_and_hazards.md R260 leaves
unspecified. -/
opaque Config.freeSignificandWidth : Nat → Nat

end Sys2Proof
end

