-- ==== Sys2Proof/Machine/State.lean ====
section
/-! DEFINITION. The state of the block and of its host interface as plain data, and the state after reset. -/

namespace Sys2Proof.Machine

/-- The format register, the block's only architectural state (10_state.md R20, R21). -/
structure Fmt where
  /-- `FMT.VALID`: a format has been accepted since reset. -/
  valid : Bool
  /-- `FMT.E`, the exponent width. -/
  e : Nat
  /-- `FMT.M`, the significand width. -/
  m : Nat
  deriving DecidableEq, Repr

/-- The response status (60_exceptions.md R230). -/
inductive Status where
  | ok
  | invalidFormat
  | malformedInput
  | unrepresentableInput
  | illegalCommand
  deriving DecidableEq, Repr

/-- The payload of a response (30_encoding.md R53). -/
inductive Payload where
  /-- FMT.CUSTOM, FMT.PRESET, and every response that is not OK. -/
  | empty
  /-- FMT.QUERY: `(E, M, T, BIAS, MAXEF, MINNEF)`. -/
  | constants (e m t bias maxef minnef : Nat)
  /-- CLASSIFY: a classification code. -/
  | cls (code : Nat)
  /-- SPLIT: `(sign, ef, sf)`. -/
  | fields (sign ef sf : Nat)
  /-- PACK and the encode commands: a layout. -/
  | bits (b : Nat)
  /-- DECODE: `(cls, sign, ef, sf, value?)`. -/
  | decoded (code sign ef sf : Nat) (value : Option (Int × Nat))
  deriving DecidableEq, Repr

/-- A response: a pair of a status and a payload (30_encoding.md R53). -/
structure Response where
  status : Status
  payload : Payload
  deriving DecidableEq, Repr

/-- What the host does to the block (log entries 1 and 9). -/
inductive Event where
  /-- The host hands over a command, whole (30_encoding.md R50). -/
  | command (c : Command)
  /-- Reset is asserted once the events before it have been taken (70_reset_and_hazards.md R260): between commands
  (`none`), or before the delivered command `c` has responded (`some c`). -/
  | reset (inFlight : Option Command)
  deriving DecidableEq, Repr

/-- Why a step can stop with a fault: never. The block has no fault and no stuck case (60_exceptions.md R231,
70_reset_and_hazards.md R267, 93_implementation_defined.md Part 1), so the type has no constructor (log entry 12). -/
inductive Fault where
  deriving DecidableEq, Repr

/-- Why a step can refuse a command. -/
inductive Refusal where
  /-- A row of the opcode table that has no meaning in the model yet. Raised by an arm of `exec`. No arm raises it: every
  row has its meaning. Safe: it stops where the block goes on. -/
  | notModelled (mnemonic : String)
  deriving DecidableEq, Repr

/-- The whole state. `fmt` is the spec's own (10_state.md R20). `config` holds the parameters of 00_scope.md R10 to R14,
which no step writes (log entry 3). `pending` and `responses` are the host interface, oldest first (log entry 1).
`resets` is the model's own counter, the index of the free values a reset leaves in FMT (log entry 7). -/
structure State where
  fmt : Fmt
  config : Config
  pending : List Event
  responses : List Response
  resets : Nat
  deriving DecidableEq, Repr

/-- The machine right after reset (10_state.md R32, 70_reset_and_hazards.md R260): `FMT.VALID = 0`, the parameters at
their defaults, nothing issued and nothing answered.

DESIGN CHOICE (log entry 6): FMT.E and FMT.M, which the spec leaves unspecified, hold 0. -/
def State.reset : State :=
  { fmt := { valid := false, e := 0, m := 0 }, config := Config.default, pending := [], responses := [], resets := 0 }

/-- What a meaning or a step answers. -/
abbrev Result := Host.Outcome State Fault Refusal

end Sys2Proof.Machine
end

