-- ==== Sys2Proof/Machine/Ops.lean ====
section
/-! DEFINITION. The shared operations over the state: reading and writing FMT, ending a command with its response, the
format guard, and taking a reset. The block takes no exception (60_exceptions.md R231, R232): what stands in its place is
`raise`. -/

namespace Sys2Proof.Machine

/-- `respond(status, payload)` of 00_scope.md R18: emit one response after those before it (20_memory.md R44) and leave
the state as written so far. -/
def respond (st : Status) (p : Payload) (s : State) : Result :=
  .next { s with responses := s.responses ++ [⟨st, p⟩] }

/-- A command that completes with its payload (30_encoding.md R53). -/
def answer (p : Payload) (s : State) : Result := respond .ok p s

/-- `raise S` of 00_scope.md R18: respond with status `S` and an empty payload (30_encoding.md R53), no state written.
Nothing is saved and control goes nowhere (60_exceptions.md R231). -/
def raise (st : Status) (s : State) : Result := respond st .empty s

/-- `FMT <- (VALID = 1, E = e, M = m)`: FMT is written only whole (10_state.md R22). -/
def writeFmt (e m : Nat) (s : State) : State := { s with fmt := { valid := true, e := e, m := m } }

/-- The format guard of 60_exceptions.md R235: InvalidFormat while `FMT.VALID = 0`, else go on with `FMT.E` and `FMT.M`. -/
def withFormat (k : Nat → Nat → State → Result) (s : State) : Result :=
  if s.fmt.valid then k s.fmt.e s.fmt.m s else raise .invalidFormat s

/-- The oldest event leaves the queue. -/
def takeEvent (s : State) : State := { s with pending := s.pending.tail }

/-- Reset (70_reset_and_hazards.md R260): `FMT.VALID <- 0` and nothing else. `FMT.E` and `FMT.M` become unspecified: each
takes a free value (log entry 7). A command in flight gives no response and has no effect, so reset is the same with and
without one. -/
def takeReset (s : State) : State :=
  { s with
    fmt := { valid := false, e := Config.freeExponentWidth s.resets, m := Config.freeSignificandWidth s.resets }
    resets := s.resets + 1 }

/-- The host issues a command: it joins the queue after those issued before it (20_memory.md R44). -/
def issue (c : Command) (s : State) : State := { s with pending := s.pending ++ [.command c] }

/-- The oldest command of a queue: the one in flight. -/
def inFlight : List Event → Option Command
  | [] => none
  | .command c :: _ => some c
  | .reset _ :: rest => inFlight rest

/-- The host asserts reset now (70_reset_and_hazards.md R260). No command still in the queue has responded, so none of them
gives a response or has an effect: the queue holds the reset alone (log entry 9). -/
def assertReset (s : State) : State := { s with pending := [.reset (inFlight s.pending)] }

/-- The command is the next thing the block takes. -/
def placeNext (c : Command) (s : State) : State := { s with pending := .command c :: s.pending }

end Sys2Proof.Machine
end

