-- ==== Sys2Proof/Machine/Operands.lean ====
section
/-! DEFINITION. Reading an operand slot (30_encoding.md R57): a slot is the integer it carries, never extended, scaled or
shifted, and a value outside its range is MalformedInput. -/

namespace Sys2Proof.Machine

/-- A magnitude slot (`num`, `digits`, `den` before its zero check): a natural, or nothing when negative. -/
def asNat (x : Int) : Option Nat := if 0 ≤ x then some x.toNat else none

/-- A field-valued slot of width `w`: a natural in `0 .. 2^w - 1`, or nothing. -/
def inWidth (x : Int) (w : Nat) : Option Nat := if 0 ≤ x ∧ x.toNat < 2 ^ w then some x.toNat else none

/-- Go on with an operand that is in range, or raise MalformedInput (60_exceptions.md R234). -/
def wellFormedOr (x : Option Nat) (k : Nat → State → Result) (s : State) : Result :=
  match x with
  | some v => k v s
  | none => raise .malformedInput s

end Sys2Proof.Machine
end

