-- ==== Sys2Proof/Machine/Format.lean ====
section
/-! DEFINITION. float_format_parameterizer: the derived constants, format validity, the presets, and the meanings of
FMT.CUSTOM, FMT.PRESET and FMT.QUERY (40_format.md, 10_state.md R23). -/

namespace Sys2Proof.Machine

/-- `T = 1 + E + M` (00_scope.md R19). -/
def totalBits (e m : Nat) : Nat := 1 + e + m

/-- `BIAS = 2^(E-1) - 1` (00_scope.md R19), exact for every `E >= 1` (40_format.md R87). -/
def bias (e : Nat) : Nat := 2 ^ (e - 1) - 1

/-- `MAXEF = 2^E - 1` (00_scope.md R19). -/
def maxExponentField (e : Nat) : Nat := 2 ^ e - 1

/-- `MINNEF = 1` (00_scope.md R19). -/
def minNormalExponentField : Nat := 1

/-- `validFormat(E, M)` of 40_format.md R80. -/
def validFormat (maxTotalBits : Nat) (e m : Int) : Bool :=
  decide (1 ≤ e) && decide (0 ≤ m) && decide (1 + e + m ≤ maxTotalBits)

/-- The (E, M) pair of a preset id, nothing for the ids 5, 6 and 7 (40_format.md R83, R84). -/
def presetWidths : Nat → Option (Nat × Nat)
  | 0 => some (5, 10)
  | 1 => some (8, 7)
  | 2 => some (8, 10)
  | 3 => some (8, 23)
  | 4 => some (11, 52)
  | _ => none

/-- FMT.CUSTOM (40_format.md R81, R82). -/
def execFmtCustom (e m : Int) (s : State) : Result :=
  if validFormat s.config.maxTotalBits e m then answer .empty (writeFmt e.toNat m.toNat s)
  else raise .invalidFormat s

/-- FMT.PRESET (40_format.md R83, R84). -/
def execFmtPreset (p : Nat) (s : State) : Result :=
  match presetWidths p with
  | some (e, m) => answer .empty (writeFmt e m s)
  | none => raise .invalidFormat s

/-- FMT.QUERY (40_format.md R86). -/
def execFmtQuery (s : State) : Result :=
  withFormat (fun e m => answer
    (.constants e m (totalBits e m) (bias e) (maxExponentField e) minNormalExponentField)) s

end Sys2Proof.Machine
end

