-- ==== Sys2Proof/Machine/BitLayout.lean ====
section
/-! DEFINITION. Field split and pack of a bit layout, and the meanings of SPLIT and PACK (41_bitlayout.md). -/

namespace Sys2Proof.Machine

/-- The raw fields of a layout (00_scope.md section 5, RawFields). -/
structure RawFields where
  sign : Nat
  ef : Nat
  sf : Nat
  deriving DecidableEq, Repr

/-- `splitFields` of 41_bitlayout.md R100: the sign is the top bit of the layout (20_memory.md R41). -/
def splitFields (e m b : Nat) : RawFields :=
  { sign := b / 2 ^ (e + m), ef := b / 2 ^ m % 2 ^ e, sf := b % 2 ^ m }

/-- `packFields` of 41_bitlayout.md R100. -/
def packFields (e m sign ef sf : Nat) : Nat := sign * 2 ^ (e + m) + ef * 2 ^ m + sf

/-- SPLIT (41_bitlayout.md R101). -/
def execSplit (bits : Int) (s : State) : Result :=
  withFormat (fun e m => wellFormedOr (inWidth bits (totalBits e m)) fun b =>
    answer (.fields (splitFields e m b).sign (splitFields e m b).ef (splitFields e m b).sf)) s

/-- PACK (41_bitlayout.md R102). -/
def execPack (sign : Bool) (ef sf : Int) (s : State) : Result :=
  withFormat (fun e m => wellFormedOr (inWidth ef e) fun x => wellFormedOr (inWidth sf m) fun y =>
    answer (.bits (packFields e m (bitOf sign) x y))) s

end Sys2Proof.Machine
end

