-- ==== Sys2Proof/Machine/Classifier.lean ====
section
/-! DEFINITION. bit_classifier: the classification function and the meaning of CLASSIFY (42_classifier.md). -/

namespace Sys2Proof.Machine

/-- The code of a class (42_classifier.md R120). -/
def classCode : Class → Nat
  | .zero => 0
  | .subnormal => 1
  | .normal => 2
  | .infinity => 3
  | .nan => 4

/-- `classify(ef, sf)` of 42_classifier.md R121, for fields in range. The sign does not enter it. -/
def classOf (e ef sf : Nat) : Class :=
  if ef = 0 then (if sf = 0 then .zero else .subnormal)
  else if ef < maxExponentField e then .normal
  else if sf = 0 then .infinity
  else .nan

/-- CLASSIFY (42_classifier.md R122). The sign bit is accepted and has no effect (R123). -/
def execClassify (_sign : Bool) (ef sf : Int) (s : State) : Result :=
  withFormat (fun e m => wellFormedOr (inWidth ef e) fun x => wellFormedOr (inWidth sf m) fun y =>
    answer (.cls (classCode (classOf e x y)))) s

end Sys2Proof.Machine
end

