-- ==== Sys2Proof/Machine/Decoder.lean ====
section
/-! DEFINITION. fp_decoder: the value of a finite layout as a reduced fraction, and the meaning of DECODE
(43_decoder.md). -/

namespace Sys2Proof.Machine

/-- `sig(ef, sf)` of 43_decoder.md R131: the implicit bit is there exactly when `ef >= 1`. -/
def significandOf (m ef sf : Nat) : Nat := if ef = 0 then sf else sf + 2 ^ m

/-- `scaleExp(ef) = max(ef, 1) - BIAS - M` of 43_decoder.md R131 (90_conflicts.md C1). -/
def scaleExponent (e m ef : Nat) : Int := (max ef 1 : Nat) - (bias e : Nat) - (m : Nat)

/-- How often 2 divides `g`, for a positive `g` of at most `fuel` binary digits. -/
def twosDividing : Nat → Nat → Nat
  | 0, _ => 0
  | fuel + 1, g => if g % 2 = 0 then twosDividing fuel (g / 2) + 1 else 0

/-- A magnitude with its sign: `(-1)^sign * g`. -/
def signed (sign g : Nat) : Int := if sign = 0 then (g : Int) else -(g : Int)

/-- `reduce((-1)^sign * g * 2^k)` of 43_decoder.md R132: lowest terms, the sign in the numerator, both zeros `(0, 1)`. -/
def reduceDyadic (sign g : Nat) (k : Int) : Int × Nat :=
  if g = 0 then (0, 1)
  else
    let t := twosDividing (g.log2 + 1) g
    let odd := g / 2 ^ t
    let j := k + t
    if 0 ≤ j then (signed sign (odd * 2 ^ j.toNat), 1) else (signed sign odd, 2 ^ (-j).toNat)

/-- The value of finite fields, reduced (43_decoder.md R130 to R132). -/
def valueOf (e m : Nat) (f : RawFields) : Int × Nat :=
  reduceDyadic f.sign (significandOf m f.ef f.sf) (scaleExponent e m f.ef)

/-- The class has a value (43_decoder.md R130). -/
def finite : Class → Bool
  | .zero | .subnormal | .normal => true
  | .infinity | .nan => false

/-- `decode(b)` of 43_decoder.md R130, as the payload of R133. -/
def decodeLayout (e m b : Nat) : Payload :=
  let f := splitFields e m b
  let c := classOf e f.ef f.sf
  .decoded (classCode c) f.sign f.ef f.sf (if finite c then some (valueOf e m f) else none)

/-- DECODE (43_decoder.md R134). -/
def execDecode (bits : Int) (s : State) : Result :=
  withFormat (fun e m => wellFormedOr (inWidth bits (totalBits e m)) fun b => answer (decodeLayout e m b)) s

end Sys2Proof.Machine
end

