-- ==== Sys2Proof/Machine/Rounding.lean ====
section
/-! DEFINITION. The rounding core of fp_encoder on exact non-negative fractions: binary exponent, round to nearest with
ties to even, and the encoding function (44_encoder.md R150 to R158). -/

namespace Sys2Proof.Machine

/-- An exact magnitude `num / den` with `den >= 1`, not necessarily in lowest terms (44_encoder.md R150, R160).

DESIGN CHOICE (log entry 23): the exact rationals of 00_scope.md R16 are held as pairs of naturals, so that the kernel
evaluates every command. -/
structure Frac where
  num : Nat
  den : Nat
  deriving DecidableEq, Repr

/-- The exact magnitude divided by `2^k` (00_scope.md R16: `2^k` is a rational for negative `k`). -/
def Frac.scaleDown (q : Frac) (k : Int) : Frac :=
  if 0 ≤ k then ⟨q.num, q.den * 2 ^ k.toNat⟩ else ⟨q.num * 2 ^ (-k).toNat, q.den⟩

/-- `bitlen(x)` of 44_encoder.md R151: the number of binary digits. -/
def bitLength (x : Nat) : Nat := if x = 0 then 0 else x.log2 + 1

/-- `2^k <= q`, decided without a quotient (44_encoder.md R151). -/
def Frac.atLeastPow2 (q : Frac) (k : Int) : Bool :=
  if 0 ≤ k then decide (q.den * 2 ^ k.toNat ≤ q.num) else decide (q.den ≤ q.num * 2 ^ (-k).toNat)

/-- `floorLog2(q)` for `q > 0`, by the one comparison of 44_encoder.md R151. -/
def Frac.floorLog2 (q : Frac) : Int :=
  let e0 : Int := (bitLength q.num : Int) - (bitLength q.den : Int)
  if q.atLeastPow2 e0 then e0 else e0 - 1

/-- `RNE(q)` of 44_encoder.md R152: with `d` the fractional part, `f` for `d < 1/2`, `f + 1` for `d > 1/2`, the even one
of the two for `d = 1/2`. -/
def Frac.roundNearestEven (q : Frac) : Nat :=
  let f := q.num / q.den
  let r := q.num % q.den
  if 2 * r < q.den then f
  else if q.den < 2 * r then f + 1
  else if f % 2 = 0 then f
  else f + 1

/-- `zeroSign(s)` of 44_encoder.md R156. -/
def zeroSign (cfg : Config) (sign : Nat) : Nat := if cfg.negzeroIn then sign else 0

/-- The rounded layout without its sign bit, `F` of 44_encoder.md R153, for `q > 0`: the normal range (R154), else the
subnormal and underflow range (R155, R158). A carry out of the significand is ordinary addition. -/
def roundedMagnitude (e m : Nat) (q : Frac) : Nat :=
  let x := q.floorLog2 + (bias e : Nat)
  if (minNormalExponentField : Int) ≤ x then
    (x - 1).toNat * 2 ^ m + (q.scaleDown (q.floorLog2 - (m : Nat))).roundNearestEven
  else (q.scaleDown (1 - (bias e : Nat) - (m : Nat))).roundNearestEven

/-- `encodeFinite(s, q)` of 44_encoder.md R153: an exact zero (R156), overflow to a signed INFINITY tested on the rounded
result (R157, 90_conflicts.md C6), else the rounded layout with the sign (R158 when it is zero). -/
def encodeFinite (cfg : Config) (e m sign : Nat) (q : Frac) : Nat :=
  if q.num = 0 then packFields e m (zeroSign cfg sign) 0 0
  else
    let f := roundedMagnitude e m q
    if maxExponentField e * 2 ^ m ≤ f then packFields e m sign (maxExponentField e) 0
    else packFields e m sign (f / 2 ^ m) (f % 2 ^ m)

end Sys2Proof.Machine
end

