-- ==== Sys2Proof/Machine/Encoder.lean ====
section
/-! DEFINITION. fp_encoder: the meanings of ENCODE.RAT, ENCODE.DEC and ENCODE.NF (44_encoder.md R160 to R162). -/

namespace Sys2Proof.Machine

/-- ENCODE.RAT (44_encoder.md R160): the sign checks come before the zero-denominator check (60_exceptions.md R236). -/
def execEncodeRat (sign : Bool) (num den : Int) (s : State) : Result :=
  withFormat (fun e m => wellFormedOr (asNat num) fun n => wellFormedOr (asNat den) fun d t =>
    if d = 0 then raise .unrepresentableInput t
    else answer (.bits (encodeFinite t.config e m (bitOf sign) ⟨n, d⟩)) t) s

/-- `digits * 10^exp10`, exact (44_encoder.md R161). -/
def decimalFrac (digits : Nat) (exp10 : Int) : Frac :=
  if 0 ≤ exp10 then ⟨digits * 10 ^ exp10.toNat, 1⟩ else ⟨digits, 10 ^ (-exp10).toNat⟩

/-- ENCODE.DEC (44_encoder.md R161). -/
def execEncodeDec (sign : Bool) (digits exp10 : Int) (s : State) : Result :=
  withFormat (fun e m => wellFormedOr (asNat digits) fun d t =>
    answer (.bits (encodeFinite t.config e m (bitOf sign) (decimalFrac d exp10))) t) s

/-- `NAN_SIGNIFICAND(M)` of 00_scope.md R13: the configured value for the width, else the default `2^(M-1)`.

PRESUMED (log entry 5): the default is the spec's general knowledge (93_implementation_defined.md G1). -/
def nanSignificand (cfg : Config) (m : Nat) : Nat :=
  match cfg.nanSignificands.find? (fun p => p.1 == m) with
  | some p => p.2
  | none => 2 ^ (m - 1)

/-- ENCODE.NF (44_encoder.md R162). -/
def execEncodeNf (sign : Bool) (k : NonFinite) (s : State) : Result :=
  withFormat (fun e m t =>
    if t.config.nonfiniteEnable = false then raise .unrepresentableInput t
    else match k with
      | .infinity => answer (.bits (packFields e m (bitOf sign) (maxExponentField e) 0)) t
      | .nan =>
        if m = 0 then raise .unrepresentableInput t
        else answer (.bits (packFields e m (bitOf sign) (maxExponentField e) (nanSignificand t.config m))) t) s

end Sys2Proof.Machine
end

