-- ==== Sys2Proof/Machine/Dispatch.lean ====
section
/-! DEFINITION. One arm per constructor of Instr, each a direct call of its meaning. -/

namespace Sys2Proof.Machine

/-- The meaning of a command on the state whose queue it has left. -/
def exec (i : Instr) (s : State) : Host.Outcome State Fault Refusal :=
  match i with
  | .fmtCustom e m => Sys2Proof.Machine.execFmtCustom e m s
  | .fmtPreset p => Sys2Proof.Machine.execFmtPreset p s
  | .fmtQuery => Sys2Proof.Machine.execFmtQuery s
  | .classify sign ef sf => Sys2Proof.Machine.execClassify sign ef sf s
  | .split bits => Sys2Proof.Machine.execSplit bits s
  | .pack sign ef sf => Sys2Proof.Machine.execPack sign ef sf s
  | .decode bits => Sys2Proof.Machine.execDecode bits s
  | .encodeRat sign num den => Sys2Proof.Machine.execEncodeRat sign num den s
  | .encodeDec sign digits exp10 => Sys2Proof.Machine.execEncodeDec sign digits exp10 s
  | .encodeNf sign k => Sys2Proof.Machine.execEncodeNf sign k s

end Sys2Proof.Machine
end

