-- ==== Sys2Proof/Machine/Step.lean ====
section
/-! DEFINITION. One step of the block: the oldest event the host issued is taken (20_memory.md R44). -/

namespace Sys2Proof.Machine

/-- One step. A command is decoded (30_encoding.md R54): an illegal header responds IllegalCommand and writes nothing
(60_exceptions.md R238), any other command has its meaning. A reset takes effect (70_reset_and_hazards.md R260). With
nothing issued the block waits, unchanged (log entry 2). -/
def step (s : State) : Host.Outcome State Fault Refusal :=
  match s.pending with
  | [] => .next s
  | .command c :: _ =>
    match decodeCommand c with
    | .command i => exec i (takeEvent s)
    | .rejected _ => raise .illegalCommand (takeEvent s)
  | .reset _ :: _ => .next (takeReset (takeEvent s))

/-- The state with the table word `w` placed as the next command the block takes, both operand slots 0 (log entry 10). -/
def State.withFetchWord (s : State) (_nbits w : Nat) : State := placeNext ⟨BitVec.ofNat 32 w, 0, 0⟩ s

end Sys2Proof.Machine
end

