-- ==== Sys2Proof/Machine/HostText.lean ====
section
/-! DEFINITION. Host adaptor, text forms of a layout: hexadecimal and binary strings (45_host_text.md R190 to R197), and
the host's copy of the total width (70_reset_and_hazards.md R263). Pure functions beside the step. -/

namespace Sys2Proof.Machine

/-- What a function of the host adaptor returns: a value, or the error it reports (45_host_text.md). -/
inductive Adapted (α : Type) where
  | value (a : α)
  | error (st : Status)
  deriving DecidableEq, Repr

/-- `lo <= c <= hi`. -/
def between (lo hi c : Char) : Bool := decide (lo.toNat ≤ c.toNat) && decide (c.toNat ≤ hi.toNat)

/-- A decimal digit's value, nothing for any other character. -/
def decimalDigit (c : Char) : Option Nat := if between '0' '9' c then some (c.toNat - 48) else none

/-- A hexadecimal digit's value, in either case, nothing for any other character (45_host_text.md R191). -/
def hexDigit (c : Char) : Option Nat :=
  if between '0' '9' c then some (c.toNat - 48)
  else if between 'a' 'f' c then some (c.toNat - 87)
  else if between 'A' 'F' c then some (c.toNat - 55)
  else none

/-- A binary digit's value, nothing for any other character (45_host_text.md R194). -/
def binaryDigit (c : Char) : Option Nat := if c = '0' then some 0 else if c = '1' then some 1 else none

/-- The value of every character under `digit`, nothing when one has none. -/
def readDigits (digit : Char → Option Nat) : Text → Option (List Nat)
  | [] => some []
  | c :: rest =>
    match digit c, readDigits digit rest with
    | some d, some ds => some (d :: ds)
    | _, _ => none

/-- The number a digit list spells, most significant digit first. -/
def digitsValue (base : Nat) (ds : List Nat) : Nat := ds.foldl (fun acc d => acc * base + d) 0

/-- The uppercase character of a digit below 16 (45_host_text.md R196). -/
def digitChar (d : Nat) : Char := if d < 10 then Char.ofNat (48 + d) else Char.ofNat (55 + d)

/-- `H = ceil(T/4)` (45_host_text.md R190). -/
def hexWidth (t : Nat) : Nat := (t + 3) / 4

/-- The character string of the `n` lowest digits of `b` in a base, most significant first. -/
def fixedDigits (base n b : Nat) : Text := (List.range n).map fun p => digitChar (b / base ^ (n - 1 - p) % base)

/-- `toHex(b, T)` (45_host_text.md R196). -/
def toHex (b t : Nat) : Text := fixedDigits 16 (hexWidth t) b

/-- `toBitString(b, T)` (45_host_text.md R195): character `p` shows bit `T-1-p`. -/
def toBitString (b t : Nat) : Text := fixedDigits 2 t b

/-- `fromHex(str, T)` (45_host_text.md R192). -/
def fromHex (str : Text) (t : Nat) : Adapted Nat :=
  if str = [] then .error .malformedInput
  else match readDigits hexDigit str with
    | none => .error .malformedInput
    | some ds => if 2 ^ t ≤ digitsValue 16 ds then .error .malformedInput else .value (digitsValue 16 ds)

/-- `fromBitString(str, T)` (45_host_text.md R194). -/
def fromBitString (str : Text) (t : Nat) : Adapted Nat :=
  if str.length ≠ t then .error .malformedInput
  else match readDigits binaryDigit str with
    | none => .error .malformedInput
    | some ds => .value (digitsValue 2 ds)

/-- The decimal digits of `n`, at most `fuel` of them, put before `acc`. -/
def decimalDigits : Nat → Nat → Text → Text
  | 0, _, acc => acc
  | fuel + 1, n, acc =>
    if n < 10 then digitChar n :: acc else decimalDigits fuel (n / 10) (digitChar (n % 10) :: acc)

/-- A natural in base 10 with no leading zeros (45_host_text.md R208). -/
def natText (n : Nat) : Text := decimalDigits (n.log2 + 1) n []

/-- An integer in base 10, with a leading `-` when it is negative (45_host_text.md R208). -/
def intText (x : Int) : Text := if x < 0 then '-' :: natText x.natAbs else natText x.natAbs

/-- The host's copy of the current total width after it receives the response to a command it issued
(70_reset_and_hazards.md R263): kept from a successful FMT.CUSTOM or FMT.PRESET, read with FMT.QUERY, else unchanged. -/
def trackWidth (copy : Option Nat) (i : Instr) (r : Response) : Option Nat :=
  match i, r with
  | .fmtCustom e m, ⟨.ok, _⟩ => some (totalBits e.toNat m.toNat)
  | .fmtPreset p, ⟨.ok, _⟩ => (presetWidths p).map fun w => totalBits w.1 w.2
  | .fmtQuery, ⟨.ok, .constants _ _ t _ _ _⟩ => some t
  | _, _ => copy

/-- The host's copy after a reset: stale, so discarded (70_reset_and_hazards.md R263). -/
def discardWidth (_copy : Option Nat) : Option Nat := none

end Sys2Proof.Machine
end

