-- ==== Sys2Proof/Machine/HostInput.lean ====
section
/-! DEFINITION. Host adaptor, inputs of the encode and format commands: decimal and non-finite strings, signed rationals,
preset names, and the pseudo-instructions built from them (45_host_text.md R198 to R203, 30_encoding.md R61). -/

namespace Sys2Proof.Machine

/-- A character of `"0" .. "9"` (45_host_text.md R198). -/
def isDigit (c : Char) : Bool := between '0' '9' c

/-- The natural a string of decimal digits spells. -/
def digitsNat (t : Text) : Nat := digitsValue 10 (t.map fun c => c.toNat - 48)

/-- `sign?`: the sign and what follows it (45_host_text.md R198). -/
def readSign : Text → Bool × Text
  | '-' :: rest => (true, rest)
  | '+' :: rest => (false, rest)
  | t => (false, t)

/-- `mantissa`: the digits before the point, the digits after it, and what follows (45_host_text.md R198, R199). -/
def readMantissa (t : Text) : Option (Text × Text × Text) :=
  let whole := t.takeWhile isDigit
  match t.dropWhile isDigit with
  | '.' :: rest =>
    let part := rest.takeWhile isDigit
    if whole = [] ∧ part = [] then none else some (whole, part, rest.dropWhile isDigit)
  | rest => if whole = [] then none else some (whole, [], rest)

/-- `exponent?` up to the end of the string: its value `X0`, 0 when absent (45_host_text.md R198, R199). -/
def readExponent : Text → Option Int
  | [] => some 0
  | c :: rest =>
    if c = 'e' ∨ c = 'E' then
      let (neg, ds) := readSign rest
      if ds ≠ [] ∧ ds.all isDigit then some (if neg then -(digitsNat ds : Int) else digitsNat ds) else none
    else none

/-- A `nonfinite` token without its sign, letters in either case (45_host_text.md R198, R200). -/
def nonfiniteToken (t : Text) : Option NonFinite :=
  let low := t.map Char.toLower
  if low = "inf".toList ∨ low = "infinity".toList then some .infinity
  else if low = "nan".toList then some .nan
  else none

/-- A `decimal` without its sign: `(digits, exp10)` (45_host_text.md R199). -/
def unsignedDecimal (t : Text) : Option (Nat × Int) :=
  match readMantissa t with
  | none => none
  | some (whole, part, rest) =>
    match readExponent rest with
    | none => none
    | some x0 => some (digitsNat (whole ++ part), x0 - part.length)

/-- `parseDecimal(str)` (45_host_text.md R198 to R201): the one command a string maps to, or MalformedInput. -/
def parseDecimal (str : Text) : Adapted Instr :=
  let (neg, body) := readSign str
  match unsignedDecimal body with
  | some (digits, exp10) => .value (.encodeDec neg digits exp10)
  | none =>
    match nonfiniteToken body with
    | some k => .value (.encodeNf neg k)
    | none => .error .malformedInput

/-- The command of a signed exact rational `n / d` (45_host_text.md R202). -/
def rationalCommand (n d : Int) : Instr := .encodeRat (decide (n < 0)) n.natAbs d

/-- The preset id of a name, matched exactly (45_host_text.md R203). -/
def presetId (name : Text) : Adapted Nat :=
  if name = "FP16".toList then .value 0
  else if name = "BF16".toList then .value 1
  else if name = "TF32".toList then .value 2
  else if name = "FP32".toList then .value 3
  else if name = "FP64".toList then .value 4
  else .error .invalidFormat

/-- The pseudo-instructions of 30_encoding.md R61. -/
inductive Pseudo where
  /-- `decode.hex "<hex>"`. -/
  | decodeHex (hex : Text)
  /-- `decode.bin "<bits>"`. -/
  | decodeBin (bits : Text)
  /-- `encode "<decimal>"`. -/
  | encode (decimal : Text)
  /-- `encode.q <n>, <d>`. -/
  | encodeQ (n d : Int)
  /-- `fmt.name "<preset name>"`. -/
  | fmtName (name : Text)
  deriving DecidableEq, Repr

/-- A layout read from text becomes a DECODE. An error stops the expansion (30_encoding.md R61). -/
def decodeOf : Adapted Nat → Adapted Instr
  | .value b => .value (.decode b)
  | .error st => .error st

/-- The expansion of a pseudo-instruction, `t` being the host's copy of the total width (30_encoding.md R61). An unknown
preset name expands to `fmt.preset` with `P = 5` (log entry 24). -/
def Pseudo.expand (t : Nat) : Pseudo → Adapted Instr
  | .decodeHex hex => decodeOf (fromHex hex t)
  | .decodeBin bits => decodeOf (fromBitString bits t)
  | .encode decimal => parseDecimal decimal
  | .encodeQ n d => .value (rationalCommand n d)
  | .fmtName name =>
    match presetId name with
    | .value p => .value (.fmtPreset p)
    | .error _ => .value (.fmtPreset 5)

end Sys2Proof.Machine
end

