-- ==== Sys2Proof/Machine/Assembler.lean ====
section
/-! DEFINITION. The assembler syntax of 30_encoding.md R60 and the pseudo-instructions' spelling of R61: one command per
line. Host-side text only: the block never sees it. What R60 leaves open is log entry 15. -/

namespace Sys2Proof.Machine

/-- What a line assembles to. -/
inductive Assembled where
  /-- An empty line, or a comment alone. -/
  | blank
  /-- The command to issue. -/
  | command (i : Instr)
  /-- A pseudo-instruction whose expansion stopped with this error: no command is issued (30_encoding.md R61). -/
  | stopped (st : Status)
  /-- Not a line of the syntax. -/
  | syntaxError
  deriving DecidableEq, Repr

/-- A blank between the parts of a line. -/
def isBlank (c : Char) : Bool := c = ' ' || c = '\t' || c = '\r'

/-- The line without its comment: `;` outside a quoted string starts one. -/
def stripComment : Bool → Text → Text
  | _, [] => []
  | quoted, c :: rest =>
    if c = ';' ∧ quoted = false then [] else c :: stripComment (if c = '"' then !quoted else quoted) rest

/-- Text without blanks at its ends. -/
def trim (t : Text) : Text := ((t.dropWhile isBlank).reverse.dropWhile isBlank).reverse

/-- The parts between commas. -/
def splitCommas : Text → List Text
  | [] => [[]]
  | c :: rest =>
    if c = ',' then [] :: splitCommas rest
    else match splitCommas rest with
      | [] => [[c]]
      | part :: parts => (c :: part) :: parts

/-- A natural literal: decimal, or hexadecimal with the prefix `0x`. -/
def natLiteral : Text → Option Nat
  | '0' :: 'x' :: ds => if ds = [] then none else (readDigits hexDigit ds).map (digitsValue 16)
  | ds => if ds = [] then none else (readDigits decimalDigit ds).map (digitsValue 10)

/-- An integer literal where a leading `-` is allowed, before a decimal literal only. -/
def intLiteral : Text → Option Int
  | '-' :: ds => if ds = [] then none else (readDigits decimalDigit ds).map fun v => -(digitsValue 10 v : Int)
  | t => (natLiteral t).map fun n => (n : Int)

/-- `<s>`: `+` or `0` for S = 0, `-` or `1` for S = 1. -/
def signLiteral (t : Text) : Option Bool :=
  if t = ['+'] ∨ t = ['0'] then some false else if t = ['-'] ∨ t = ['1'] then some true else none

/-- `inf` or `nan`. -/
def kindLiteral (t : Text) : Option NonFinite :=
  if t = "inf".toList then some .infinity else if t = "nan".toList then some .nan else none

/-- A quoted string with no quote inside. -/
def quotedLiteral : Text → Option Text
  | '"' :: rest =>
    match rest.reverse with
    | '"' :: inner => if '"' ∈ inner then none else some inner.reverse
    | _ => none
  | _ => none

/-- A command when both literals are there. -/
def twoOperands (x : Option α) (y : Option β) (k : α → β → Instr) : Option Instr :=
  match x, y with
  | some a, some b => some (k a b)
  | _, _ => none

/-- A core command from its mnemonic in lower case and its operands (30_encoding.md R60). -/
def coreCommand (mnemonic : Text) (ops : List Text) : Option Instr :=
  if mnemonic = "fmt.custom".toList then
    match ops with
    | [e, m] => twoOperands (intLiteral e) (intLiteral m) .fmtCustom
    | _ => none
  else if mnemonic = "fmt.preset".toList then
    match ops with
    | [name] => match presetId name with
      | .value p => some (.fmtPreset p)
      | .error _ => none
    | _ => none
  else if mnemonic = "fmt.query".toList then
    match ops with
    | [] => some .fmtQuery
    | _ => none
  else if mnemonic = "split".toList then
    match ops with
    | [bits] => (natLiteral bits).map fun n => .split n
    | _ => none
  else if mnemonic = "decode".toList then
    match ops with
    | [bits] => (natLiteral bits).map fun n => .decode n
    | _ => none
  else if mnemonic = "encode.nf".toList then
    match ops with
    | [s, k] => twoOperands (signLiteral s) (kindLiteral k) .encodeNf
    | _ => none
  else match ops with
    | [s, x, y] =>
      match signLiteral s, natLiteral x with
      | some neg, some n =>
        if mnemonic = "classify".toList then (natLiteral y).map fun v => .classify neg n v
        else if mnemonic = "pack".toList then (natLiteral y).map fun v => .pack neg n v
        else if mnemonic = "encode.rat".toList then (natLiteral y).map fun v => .encodeRat neg n v
        else if mnemonic = "encode.dec".toList then (intLiteral y).map fun v => .encodeDec neg n v
        else none
      | _, _ => none
    | _ => none

/-- A pseudo-instruction from its mnemonic in lower case and the rest of the line (30_encoding.md R61). -/
def pseudoCommand (mnemonic rest : Text) : Option Pseudo :=
  if mnemonic = "decode.hex".toList then (quotedLiteral rest).map .decodeHex
  else if mnemonic = "decode.bin".toList then (quotedLiteral rest).map .decodeBin
  else if mnemonic = "encode".toList then (quotedLiteral rest).map .encode
  else if mnemonic = "fmt.name".toList then (quotedLiteral rest).map .fmtName
  else if mnemonic = "encode.q".toList then
    match (splitCommas rest).map trim with
    | [n, d] =>
      match intLiteral n, intLiteral d with
      | some x, some y => some (.encodeQ x y)
      | _, _ => none
    | _ => none
  else none

/-- One line of assembly, `t` being the host's copy of the total width (30_encoding.md R60, R61). The mnemonic is matched
in either case, operands are separated by commas, and `;` starts a comment. -/
def assembleLine (t : Nat) (line : Text) : Assembled :=
  let body := trim (stripComment false line)
  if body = [] then .blank
  else
    let mnemonic := (body.takeWhile fun c => !isBlank c).map Char.toLower
    let rest := trim (body.dropWhile fun c => !isBlank c)
    match pseudoCommand mnemonic rest with
    | some p =>
      match p.expand t with
      | .value i => .command i
      | .error st => .stopped st
    | none =>
      match coreCommand mnemonic (if rest = [] then [] else (splitCommas rest).map trim) with
      | some i => .command i
      | none => .syntaxError

end Sys2Proof.Machine
end

