-- ==== Sys2Proof/Machine/Report.lean ====
section
/-! DEFINITION. Host adaptor, the decode report (45_host_text.md R204 to R209) and the enumerator (R215 to R217). -/

namespace Sys2Proof.Machine

/-- The value of one key of the report: a JSON string, a JSON integer of any length (45_host_text.md R207), or the
`fraction` object with its two decimal strings (R208). -/
inductive ReportValue where
  | string (t : Text)
  | integer (n : Nat)
  | fraction (num den : Text)
  deriving DecidableEq, Repr

/-- The report: its keys and their values, in the order of 45_host_text.md R204 (log entry 16). -/
abbrev Report := List (Text × ReportValue)

/-- `NAME[c]` of a classification code (45_host_text.md R206, 42_classifier.md R120), nothing for any other number. -/
def className : Nat → Option Text
  | 0 => some "ZERO".toList
  | 1 => some "SUBNORMAL".toList
  | 2 => some "NORMAL".toList
  | 3 => some "INFINITY".toList
  | 4 => some "NAN".toList
  | _ => none

/-- The `fraction` key, present exactly when there is a value (45_host_text.md R208). -/
def fractionEntry : Option (Int × Nat) → Report
  | some (num, den) => [("fraction".toList, .fraction (intText num) (natText den))]
  | none => []

/-- `report(b)` of 45_host_text.md R204 from the response to DECODE b, `t` being the total width. There is a report only
of a DECODE that answered OK. -/
def report (t b : Nat) : Response → Option Report
  | ⟨.ok, .decoded code sign ef sf value⟩ =>
    (className code).map fun name =>
      [ ("hex".toList, .string (toHex b t)), ("bits".toList, .string (toBitString b t)), ("type".toList, .string name),
        ("sign".toList, .integer sign), ("exponent".toList, .integer ef), ("significand".toList, .integer sf) ]
      ++ fractionEntry value
  | _ => none

/-- `defaultLimit(T)` (45_host_text.md R216). -/
def defaultLimit (cfg : Config) (t : Nat) : Nat := if t ≤ 16 then 2 ^ t else cfg.enumSampleLimit

/-- `min(L, 2^T)`, the number of patterns the enumerator yields (45_host_text.md R215). -/
def enumerateCount (cfg : Config) (t : Nat) (limit : Option Nat) : Nat := min (limit.getD (defaultLimit cfg t)) (2 ^ t)

/-- `enumerate(limit?)` (45_host_text.md R215): the patterns it yields, in order (log entry 20). -/
def enumerate (cfg : Config) (t : Nat) (limit : Option Nat) : List Nat := List.range (enumerateCount cfg t limit)

/-- One chunk of the index range, `count` patterns from `start` (45_host_text.md R217). -/
def enumerateChunk (start count : Nat) : List Nat := List.range' start count

end Sys2Proof.Machine
end

