-- ==== Sys2Proof/Safety.lean ====
section
/-! DEFINITION. What counts as a good state and a finished run, in the terms the statements use. -/

namespace Sys2Proof.Machine

/-- The format register is good (10_state.md R21): while `FMT.VALID = 1`, `E >= 1` and `1 + E + M <= MAX_TOTAL_BITS`. -/
abbrev FmtGood (cfg : Config) (f : Fmt) : Prop := f.valid = true → 1 ≤ f.e ∧ 1 + f.e + f.m ≤ cfg.maxTotalBits

/-- The invariant of every reachable state: the parameters meet their constraints (00_scope.md R10, R13, R14) and FMT is
good (10_state.md R21). -/
abbrev Inv (s : State) : Prop := s.config.wf ∧ FmtGood s.config s.fmt

/-- 30_encoding.md R53: a response that is not OK has an empty payload. -/
abbrev ResponseGood (r : Response) : Prop := r.status ≠ .ok → r.payload = .empty

/-- The run has ended: nothing the host issued waits any more (70_reset_and_hazards.md R269).

DESIGN CHOICE (log entry 27): R269 asks one response for each command issued, and R260 gives none to a command a reset cut
off, so the spec does not say whether a run with such a command has ended. The model counts it ended: the cut-off command
no longer waits, and the host must issue it again as a command of its own. -/
abbrev Finished (s : State) : Prop := s.pending = []

end Sys2Proof.Machine
end

