-- ==== Sys2Proof/Safety/Grammar.lean ====
section
/-! DEFINITION. The decimal-string grammar of 45_host_text.md R198 as relations, written without the parser. -/

namespace Sys2Proof.Grammar

/-- `digits ::= ( "0" .. "9" )+`. -/
def Digits (t : Text) : Prop := t ≠ [] ∧ ∀ c ∈ t, '0'.toNat ≤ c.toNat ∧ c.toNat ≤ '9'.toNat

/-- The natural that decimal digits spell, most significant first. -/
def spelled (t : Text) : ℕ := Nat.ofDigits 10 (t.map fun c => c.toNat - '0'.toNat).reverse

/-- `sign?`, with whether it is `-`. -/
inductive Sign : Text → Bool → Prop where
  | absent : Sign [] false
  | plus : Sign ['+'] false
  | minus : Sign ['-'] true

/-- `mantissa`, with its digits `I` before and `F` after the point (R199). -/
inductive Mantissa : Text → Text → Text → Prop where
  | whole (i : Text) : Digits i → Mantissa i i []
  | point (i : Text) : Digits i → Mantissa (i ++ ['.']) i []
  | both (i f : Text) : Digits i → Digits f → Mantissa (i ++ '.' :: f) i f
  | fraction (f : Text) : Digits f → Mantissa ('.' :: f) [] f

/-- `exponent?`, with its value `X0`, 0 when absent (R199). -/
inductive Exponent : Text → ℤ → Prop where
  | absent : Exponent [] 0
  | present (c : Char) (sg : Text) (neg : Bool) (ds : Text) :
      c = 'e' ∨ c = 'E' → Sign sg neg → Digits ds →
      Exponent (c :: (sg ++ ds)) (if neg then -(spelled ds : ℤ) else spelled ds)

/-- A `decimal` with the sign, digits and exponent R199 gives it. -/
def Decimal (str : Text) (neg : Bool) (digits : ℕ) (exp10 : ℤ) : Prop :=
  ∃ sg mant ex i f x0, str = sg ++ mant ++ ex ∧ Sign sg neg ∧ Mantissa mant i f ∧ Exponent ex x0 ∧
    digits = spelled (i ++ f) ∧ exp10 = x0 - f.length

/-- A `nonfinite` token with its sign and kind (R198, R200), letters in either case. -/
def Nonfinite (str : Text) (neg : Bool) (k : NonFinite) : Prop :=
  ∃ sg tok, str = sg ++ tok ∧ Sign sg neg ∧
    (((tok.map Char.toLower = "inf".toList ∨ tok.map Char.toLower = "infinity".toList) ∧ k = .infinity) ∨
      (tok.map Char.toLower = "nan".toList ∧ k = .nan))

end Sys2Proof.Grammar
end

