-- ==== Sys2Proof/Safety/Reference.lean ====
section
/-! DEFINITION. The spec's own formulas over exact rationals and integers, written without the model's definitions, and
the conditions under which a command fails. The statements hold the model against these. -/

namespace Sys2Proof.Reference

open Sys2Proof.Machine

/-! ## Numbers (00_scope.md R16, R19) -/

/-- `BIAS` as an integer. -/
def bias (E : ℕ) : ℤ := 2 ^ (E - 1) - 1

/-- `MAXEF` as an integer. -/
def maxef (E : ℕ) : ℤ := 2 ^ E - 1

/-- `2^k` for an integer `k`: a rational when `k < 0`. -/
def pow2 (k : ℤ) : ℚ := (2 : ℚ) ^ k

/-- The exact rational a fraction of the encoder stands for. -/
def magnitude (q : Frac) : ℚ := (q.num : ℚ) / (q.den : ℚ)

/-! ## Decoding (43_decoder.md R131) -/

/-- `scaleExp(ef) = max(ef, 1) - BIAS - M`. -/
def scaleExp (E M ef : ℕ) : ℤ := max (ef : ℤ) 1 - bias E - M

/-- `value(s, ef, sf)`, exact. -/
def value (E M s ef sf : ℕ) : ℚ :=
  (-1) ^ s * (if ef = 0 then (sf : ℚ) else (sf : ℚ) + 2 ^ M) * pow2 (scaleExp E M ef)

/-- The value of the positive pattern `b` (sign bit 0) of a format (43_decoder.md R136). -/
def positiveValue (E M b : ℕ) : ℚ := value E M 0 (b / 2 ^ M) (b % 2 ^ M)

/-- A fraction as DECODE must give it (43_decoder.md R132): equal to the value, a power-of-two denominator, lowest
terms. -/
def ReducedTo (v : ℚ) (num : ℤ) (den : ℕ) : Prop :=
  (num : ℚ) / (den : ℚ) = v ∧ (∃ k : ℕ, den = 2 ^ k) ∧ Nat.Coprime num.natAbs den

/-! ## Encoding (44_encoder.md R152, R153, R156) -/

/-- `RNE(r)` of 44_encoder.md R152. -/
def rne (r : ℚ) : ℤ :=
  if r - ⌊r⌋ < 1 / 2 then ⌊r⌋
  else if 1 / 2 < r - ⌊r⌋ then ⌊r⌋ + 1
  else if ⌊r⌋ % 2 = 0 then ⌊r⌋
  else ⌊r⌋ + 1

/-- `packFields(s, ef, sf)` of 41_bitlayout.md R100. -/
def pack (E M : ℕ) (s ef sf : ℤ) : ℤ := s * 2 ^ (E + M) + ef * 2 ^ M + sf

/-- `F` of 44_encoder.md R153: the rounded layout without its sign. -/
def rounded (E M : ℕ) (q : ℚ) : ℤ :=
  if 1 ≤ Int.log 2 q + bias E then (Int.log 2 q + bias E - 1) * 2 ^ M + rne (q / pow2 (Int.log 2 q - M))
  else rne (q / pow2 (1 - bias E - M))

/-- `encodeFinite(s, q)` of 44_encoder.md R153. -/
def encodeFinite (negzeroIn : Bool) (E M : ℕ) (s : ℤ) (q : ℚ) : ℤ :=
  if q = 0 then pack E M (if negzeroIn then s else 0) 0 0
  else if maxef E * 2 ^ M ≤ rounded E M q then pack E M s (maxef E) 0
  else pack E M s (rounded E M q / 2 ^ M) (rounded E M q % 2 ^ M)

/-! ## When a command fails (60_exceptions.md R233 to R237) -/

/-- InvalidFormat: the format commands' own check, and the guard of every other command. -/
def formatFails (cfg : Config) (f : Fmt) : Instr → Prop
  | .fmtCustom e m => ¬(1 ≤ e ∧ 0 ≤ m ∧ 1 + e + m ≤ cfg.maxTotalBits)
  | .fmtPreset p => 5 ≤ p
  | .fmtQuery | .classify _ _ _ | .split _ | .pack _ _ _ | .decode _ | .encodeRat _ _ _ | .encodeDec _ _ _
  | .encodeNf _ _ => f.valid = false

/-- MalformedInput: an operand outside its range. -/
def malformed (f : Fmt) : Instr → Prop
  | .classify _ ef sf | .pack _ ef sf => ef < 0 ∨ 2 ^ f.e ≤ ef ∨ sf < 0 ∨ 2 ^ f.m ≤ sf
  | .split b | .decode b => b < 0 ∨ 2 ^ (1 + f.e + f.m) ≤ b
  | .encodeRat _ num den => num < 0 ∨ den < 0
  | .encodeDec _ digits _ => digits < 0
  | .fmtCustom _ _ | .fmtPreset _ | .fmtQuery | .encodeNf _ _ => False

/-- UnrepresentableInput: a zero denominator, non-finite support disabled, or a NaN with `M = 0`. -/
def unrepresentable (cfg : Config) (f : Fmt) : Instr → Prop
  | .encodeRat _ _ den => den = 0
  | .encodeNf _ k => cfg.nonfiniteEnable = false ∨ (k = .nan ∧ f.m = 0)
  | .fmtCustom _ _ | .fmtPreset _ | .fmtQuery | .classify _ _ _ | .split _ | .pack _ _ _ | .decode _
  | .encodeDec _ _ _ => False

/-- IllegalCommand, on the header's arithmetic (30_encoding.md R51, R54, R56): the opcode is not in the map, a reserved bit
is set, or a field the opcode does not use is set. -/
def illegalHeader (h : ℕ) : Prop :=
  h % 256 ∉ [0x01, 0x02, 0x03, 0x10, 0x11, 0x12, 0x20, 0x30, 0x31, 0x32]
  ∨ h / 2 ^ 13 ≠ 0
  ∨ (h % 256 ∉ [0x10, 0x12, 0x30, 0x31, 0x32] ∧ h / 2 ^ 8 % 2 ≠ 0)
  ∨ (h % 256 ≠ 0x32 ∧ h / 2 ^ 9 % 2 ≠ 0)
  ∨ (h % 256 ≠ 0x02 ∧ h / 2 ^ 10 % 8 ≠ 0)

end Sys2Proof.Reference
end

