-- ==== Sys2Proof/Certificates/Slice0/Obligations.lean ====
section
/-! DEFINITION. The statements for the provers, in the order of the spec's files. Each docstring names the rule of spec/
it formalises. No statement rests on a value the model chose for FMT.E or FMT.M (log entries 6 and 7): a statement about a
state with FMT.VALID = 0 holds for every value of both. Commands waiting in a queue and responses kept in a list are the
model's form of the order of issue and of response (log entries 1 and 9). -/

open Sys2Proof Sys2Proof.Machine

/-! ## Encoding of commands (30_encoding.md) -/

/-- 30_encoding.md R62: the headers it lists decode to the commands it lists, and assembling the lines it lists gives
them. -/
def Obligations.ListedHeadersAssembleAndDecode : Prop :=
  ∀ p ∈ ([ ("fmt.custom 5, 10", 0x00000001, 5, 10), ("fmt.preset FP16", 0x00000002, 0, 0),
      ("fmt.preset BF16", 0x00000402, 0, 0), ("fmt.preset TF32", 0x00000802, 0, 0),
      ("fmt.preset FP32", 0x00000C02, 0, 0), ("fmt.preset FP64", 0x00001002, 0, 0), ("fmt.query", 0x00000003, 0, 0),
      ("classify -, 31, 0", 0x00000110, 31, 0), ("split 0x3C00", 0x00000011, 0x3C00, 0),
      ("pack +, 15, 0", 0x00000012, 15, 0), ("decode 0x3C00", 0x00000020, 0x3C00, 0),
      ("encode.rat -, 3, 2", 0x00000130, 3, 2), ("encode.dec +, 1, -1", 0x00000031, 1, -1),
      ("encode.nf +, nan", 0x00000232, 0, 0), ("encode.nf -, inf", 0x00000132, 0, 0) ] :
      List (String × Header × Int × Int)),
    ∃ i, assembleLine 16 p.1.toList = .command i ∧ encode i = ⟨p.2.1, p.2.2.1, p.2.2.2⟩ ∧
      decodeCommand ⟨p.2.1, p.2.2.1, p.2.2.2⟩ = .command i

/-- 30_encoding.md R54, R58 and 60_exceptions.md R238: the decoder rejects exactly the headers whose opcode is outside the
map, whose reserved bits are not 0, or that set a field the opcode does not use, whatever the slots hold. A step on such a
command responds IllegalCommand with an empty payload and changes nothing else. -/
def Obligations.IllegalHeadersAreExactlyRefused : Prop :=
  ∀ c : Command, ((∃ r, decodeCommand c = .rejected r) ↔ Reference.illegalHeader c.hdr.toNat) ∧
    (Reference.illegalHeader c.hdr.toNat → ∀ (s : State) (rest : List Event), s.pending = .command c :: rest →
      step s = .next { s with pending := rest, responses := s.responses ++ [⟨.illegalCommand, .empty⟩] })

/-- 30_encoding.md R56 (`hdr & mask = match`) and opcode_table.json: the decoder accepts a header exactly when it matches a
row of the table, no header matches two rows, and the row's mnemonic names the command it decodes to. -/
def Obligations.AcceptedHeadersMatchOneTableRow : Prop :=
  (∀ c : Command, (∃ i, decodeCommand c = .command i) ↔ ∃ r ∈ opcodeTable, r.accepts c.hdr = true) ∧
  (∀ (h : Header) (r r' : OpcodeRow), r ∈ opcodeTable → r' ∈ opcodeTable → r.accepts h = true → r'.accepts h = true →
    r = r') ∧
  (∀ (c : Command) (i : Instr) (r : OpcodeRow), decodeCommand c = .command i → r ∈ opcodeTable →
    r.accepts c.hdr = true →
    r.mnemonic = match i with
      | .fmtCustom _ _ => "FMT.CUSTOM" | .fmtPreset _ => "FMT.PRESET" | .fmtQuery => "FMT.QUERY"
      | .classify _ _ _ => "CLASSIFY" | .split _ => "SPLIT" | .pack _ _ _ => "PACK" | .decode _ => "DECODE"
      | .encodeRat _ _ _ => "ENCODE.RAT" | .encodeDec _ _ _ => "ENCODE.DEC" | .encodeNf _ _ => "ENCODE.NF")

/-- 30_encoding.md R51, R56: decoding the words of a well-formed command gives the command back, for every command and
every value of its operands. -/
def Obligations.DecodingEncodedCommandGivesItBack : Prop :=
  ∀ i : Instr, i.wf = true → decodeCommand (encode i) = .command i

/-- 30_encoding.md R51, R56, R57: a decoded command is well formed and encodes back to the header it came from, with the
slots it names carried unchanged and the slots it does not name carrying 0. So no two headers decode to one command. -/
def Obligations.EncodingDecodedCommandGivesItsWords : Prop :=
  ∀ (c : Command) (i : Instr), decodeCommand c = .command i → i.wf = true ∧
    encode i = match i with
      | .fmtCustom _ _ | .classify _ _ _ | .pack _ _ _ | .encodeRat _ _ _ | .encodeDec _ _ _ => c
      | .split _ | .decode _ => { c with b := 0 }
      | .fmtPreset _ | .fmtQuery | .encodeNf _ _ => { c with a := 0, b := 0 }

/-- 30_encoding.md R52: a slot the command does not name has no effect. Slot B is named by none of FMT.PRESET, FMT.QUERY,
SPLIT, DECODE and ENCODE.NF, and slot A by none of FMT.PRESET, FMT.QUERY and ENCODE.NF. -/
def Obligations.UnnamedSlotsHaveNoEffect : Prop :=
  ∀ (h : Header) (a a' b b' : Int) (s : State),
    (h.toNat % 256 ∈ [0x02, 0x03, 0x11, 0x20, 0x32] →
      step (placeNext ⟨h, a, b⟩ s) = step (placeNext ⟨h, a, b'⟩ s)) ∧
    (h.toNat % 256 ∈ [0x02, 0x03, 0x32] → step (placeNext ⟨h, a, b⟩ s) = step (placeNext ⟨h, a', b⟩ s))

/-! ## Steps, order and atomicity (20_memory.md, 10_state.md) -/

/-- 20_memory.md R44, 30_encoding.md R54: when the oldest event is a command whose words decode to `i`, the step is the
meaning of `i` on the state whose queue it has left, in particular the one after a word is placed by withFetchWord. -/
def Obligations.StepRunsTheDecodedCommand : Prop :=
  (∀ (s : State) (c : Command) (rest : List Event) (i : Instr), s.pending = .command c :: rest →
    decodeCommand c = .command i → step s = exec i { s with pending := rest }) ∧
  (∀ (s : State) (nbits w : Nat) (i : Instr), nbits ≤ 32 → w < 2 ^ 32 → decodeTableWord nbits w = some i →
    step (s.withFetchWord nbits w) = exec i s)

/-- 20_memory.md R45: each command is atomic. The step that takes a command answers a next state with that command gone
from the queue, one response added, the parameters and the reset count unchanged, and FMT unchanged when the status is not
OK. FMT changes only under FMT.CUSTOM and FMT.PRESET, and an OK of one of them leaves FMT whole at the command's widths.
The queue and the response list are the model's form (log entry 1). -/
def Obligations.CommandsAreAtomic : Prop :=
  ∀ (s : State) (c : Command) (rest : List Event), s.pending = .command c :: rest →
    ∃ (f : Fmt) (r : Response),
      step s = .next { s with pending := rest, fmt := f, responses := s.responses ++ [r] } ∧
      (r.status ≠ .ok → f = s.fmt) ∧
      (f ≠ s.fmt → (∃ e m, decodeCommand c = .command (.fmtCustom e m)) ∨
        (∃ p, decodeCommand c = .command (.fmtPreset p))) ∧
      (∀ e m, decodeCommand c = .command (.fmtCustom e m) → r.status = .ok →
        f.valid = true ∧ (f.e : Int) = e ∧ (f.m : Int) = m) ∧
      (∀ p, decodeCommand c = .command (.fmtPreset p) → r.status = .ok → f.valid = true ∧
        (p, f.e, f.m) ∈ ([(0, 5, 10), (1, 8, 7), (2, 8, 10), (3, 8, 23), (4, 11, 52)] : List (Nat × Nat × Nat)))

/-- 20_memory.md R44, 70_reset_and_hazards.md R267, R269: every run ends. After as many steps as there are events issued,
nothing is pending, and exactly one response has been added for each command, after those that were there. Splitting the
queue splits the run: the responses of the events issued first come first. The queue, the response list and the reset as an
event are the model's form (log entries 1 and 9), and so is that a run a reset cut short has ended (log entry 27). -/
def Obligations.EveryIssuedCommandIsAnsweredInOrder : Prop :=
  (∀ s : State, ∃ (t : State) (rs : List Response),
    Host.Core.run core s.pending.length s = .next t ∧ Finished t ∧ t.responses = s.responses ++ rs ∧
    rs.length = s.pending.countP (fun ev => match ev with | .command _ => true | .reset _ => false)) ∧
  (∀ (s : State) (first later : List Event), s.pending = first ++ later → ∃ t u : State,
    Host.Core.run core first.length { s with pending := first } = .next t ∧
    Host.Core.run core first.length s = .next u ∧ u = { t with pending := later })

/-- 10_state.md R20, R22: a command other than FMT.CUSTOM and FMT.PRESET leaves FMT, the parameters, the queue and the
reset count unchanged, and adds one response after those that were there. There is no memory, no register file and no flag
to change (10_state.md R27 to R30, 20_memory.md R40). -/
def Obligations.OtherCommandsFrame : Prop :=
  ∀ (i : Instr) (s t : State), (∀ e m, i ≠ .fmtCustom e m) → (∀ p, i ≠ .fmtPreset p) → exec i s = .next t →
    t.fmt = s.fmt ∧ t.config = s.config ∧ t.pending = s.pending ∧ t.resets = s.resets ∧
    ∃ r, t.responses = s.responses ++ [r]

/-- 10_state.md R22, 40_format.md R82: FMT.CUSTOM and FMT.PRESET write all three fields of FMT together (VALID = 1 with the
command's own widths, when they answer OK) or none of them, and leave everything else but the added response unchanged. -/
def Obligations.FormatCommandsFrame : Prop :=
  ∀ (i : Instr) (s t : State), ((∃ e m, i = .fmtCustom e m) ∨ (∃ p, i = .fmtPreset p)) → exec i s = .next t →
    t.config = s.config ∧ t.pending = s.pending ∧ t.resets = s.resets ∧
    ((t.responses = s.responses ++ [⟨.ok, .empty⟩] ∧ t.fmt.valid = true ∧
        (∀ e m, i = .fmtCustom e m → (t.fmt.e : Int) = e ∧ (t.fmt.m : Int) = m) ∧
        (∀ p, i = .fmtPreset p → (p, t.fmt.e, t.fmt.m) ∈
          ([(0, 5, 10), (1, 8, 7), (2, 8, 10), (3, 8, 23), (4, 11, 52)] : List (Nat × Nat × Nat)))) ∨
      (t.responses = s.responses ++ [⟨.invalidFormat, .empty⟩] ∧ t.fmt = s.fmt))

/-- 10_state.md R30: a command's response is a function of its header, its operands, FMT and the parameters alone, and so
is what it leaves in FMT: two states that agree on FMT and the parameters, and otherwise differ in any way, give the same
response to the same command. -/
def Obligations.ResponseDependsOnlyOnFormatAndParameters : Prop :=
  ∀ (s s' : State) (c : Command) (rest rest' : List Event), s.pending = .command c :: rest →
    s'.pending = .command c :: rest' → s.fmt = s'.fmt → s.config = s'.config →
    ∃ (f : Fmt) (r : Response),
      step s = .next { s with pending := rest, fmt := f, responses := s.responses ++ [r] } ∧
      step s' = .next { s' with pending := rest', fmt := f, responses := s'.responses ++ [r] }

/-- 20_memory.md R46: repeating a command gives the same response and changes nothing more, so every command but
FMT.CUSTOM and FMT.PRESET can be repeated freely and those two are idempotent. -/
def Obligations.RepeatingACommandGivesTheSameResponse : Prop :=
  ∀ (i : Instr) (s t : State), exec i s = .next t → ∃ r, t.responses = s.responses ++ [r] ∧
    exec i t = .next { t with responses := t.responses ++ [r] }

/-- 10_state.md R21, with the constraints of 00_scope.md R10, R13, R14 on the parameters: while FMT.VALID = 1, `E >= 1` and
`1 + E + M <= MAX_TOTAL_BITS`. Every step from a state where this holds gives a state where it holds, whatever is issued. -/
def Obligations.StepKeepsFormatInvariant : Prop :=
  ∀ s t : State, Inv s → step s = .next t → Inv t

/-- The state after reset meets the invariant of StepKeepsFormatInvariant. -/
def Obligations.ResetMeetsFormatInvariant : Prop := Inv State.reset

/-- 30_encoding.md R53: a response whose status is not OK has an empty payload. A step keeps this of every response it
leaves. -/
def Obligations.FailedResponsesStayEmpty : Prop :=
  ∀ s t : State, (∀ r ∈ s.responses, ResponseGood r) → step s = .next t → ∀ r ∈ t.responses, ResponseGood r

/-! ## Reset (70_reset_and_hazards.md, 10_state.md) -/

/-- 70_reset_and_hazards.md R260: a reset, between commands or with a command in flight, sets FMT.VALID to 0, gives no
response, and leaves what is issued after it and the parameters as they were. Asserted while commands wait, it leaves none
of them a response or an effect. Nothing is said of FMT.E and FMT.M. That a reset is an event in the queue is the model's
form (log entry 9). -/
def Obligations.ResetInvalidatesTheFormat : Prop :=
  (∀ (s : State) (cutOff : Option Command) (rest : List Event), s.pending = .reset cutOff :: rest →
    ∃ t, step s = .next t ∧ t.fmt.valid = false ∧ t.responses = s.responses ∧ t.pending = rest ∧
      t.config = s.config) ∧
  (∀ s : State, ∃ t, step (assertReset s) = .next t ∧ t.fmt.valid = false ∧ t.responses = s.responses ∧
    t.pending = [] ∧ t.config = s.config)

/-- 10_state.md R32: after reset FMT.VALID = 0, and while it is 0 no command can observe FMT.E or FMT.M: two states with
FMT.VALID = 0 that agree but for FMT.E and FMT.M take the same step, but that FMT.E and FMT.M may stay what they were. -/
def Obligations.FormatUnobservableWhileInvalid : Prop :=
  State.reset.fmt.valid = false ∧
  ∀ (s : State) (c : Command) (rest : List Event) (e' m' : Nat), s.pending = .command c :: rest → s.fmt.valid = false →
    ∃ (f f' : Fmt) (r : Response),
      step s = .next { s with pending := rest, fmt := f, responses := s.responses ++ [r] } ∧
      step { s with fmt := ⟨false, e', m'⟩ } =
        .next { s with pending := rest, fmt := f', responses := s.responses ++ [r] } ∧
      (f = f' ∨ (f = s.fmt ∧ f' = ⟨false, e', m'⟩))

/-! ## Errors (60_exceptions.md) -/

/-- 60_exceptions.md R235: every command except FMT.CUSTOM and FMT.PRESET responds InvalidFormat, with an empty payload and
no other change, while FMT.VALID = 0. -/
def Obligations.GuardedCommandsNeedAFormat : Prop :=
  ∀ (i : Instr) (s : State), (∀ e m, i ≠ .fmtCustom e m) → (∀ p, i ≠ .fmtPreset p) → s.fmt.valid = false →
    exec i s = .next { s with responses := s.responses ++ [⟨.invalidFormat, .empty⟩] }

/-- 60_exceptions.md R236, with the causes of R233, R234, R237 and R238 in the block: the status of the response is that of
the first failing check in the order IllegalCommand, InvalidFormat, MalformedInput, UnrepresentableInput, and OK when none
fails. -/
def Obligations.StatusIsThatOfTheFirstFailingCheck : Prop :=
  ∀ (s : State) (c : Command) (rest : List Event), s.pending = .command c :: rest →
    ∃ (t : State) (r : Response), step s = .next t ∧ t.responses = s.responses ++ [r] ∧
      (Reference.illegalHeader c.hdr.toNat → r.status = .illegalCommand) ∧
      ∀ i, decodeCommand c = .command i →
        (Reference.formatFails s.config s.fmt i → r.status = .invalidFormat) ∧
        (¬ Reference.formatFails s.config s.fmt i → Reference.malformed s.fmt i → r.status = .malformedInput) ∧
        (¬ Reference.formatFails s.config s.fmt i → ¬ Reference.malformed s.fmt i →
          Reference.unrepresentable s.config s.fmt i → r.status = .unrepresentableInput) ∧
        (¬ Reference.formatFails s.config s.fmt i → ¬ Reference.malformed s.fmt i →
          ¬ Reference.unrepresentable s.config s.fmt i → r.status = .ok)

/-! ## float_format_parameterizer (40_format.md) -/

/-- 40_format.md R80, R81: FMT.CUSTOM writes a valid format whole and answers OK with an empty payload, and otherwise
responds InvalidFormat and writes nothing. It never checks FMT.VALID. -/
def Obligations.FmtCustomResult : Prop :=
  ∀ (e m : Int) (s : State),
    decodeCommand ⟨0x00000001, e, m⟩ = .command (.fmtCustom e m) ∧
    (1 ≤ e ∧ 0 ≤ m ∧ 1 + e + m ≤ s.config.maxTotalBits →
      exec (.fmtCustom e m) s =
        .next { s with fmt := ⟨true, e.toNat, m.toNat⟩, responses := s.responses ++ [⟨.ok, .empty⟩] }) ∧
    (¬(1 ≤ e ∧ 0 ≤ m ∧ 1 + e + m ≤ s.config.maxTotalBits) →
      exec (.fmtCustom e m) s = .next { s with responses := s.responses ++ [⟨.invalidFormat, .empty⟩] })

/-- 40_format.md R83, R84: FMT.PRESET with an id of 0 to 4 writes that preset's pair and answers OK, each preset being a
valid format when MAX_TOTAL_BITS is at least 64, and with an id of 5, 6 or 7 responds InvalidFormat and writes nothing. -/
def Obligations.FmtPresetResult : Prop :=
  ∀ (s : State) (a b : Int),
    (∀ p ∈ ([(0, 5, 10), (1, 8, 7), (2, 8, 10), (3, 8, 23), (4, 11, 52)] : List (Nat × Nat × Nat)),
      decodeCommand ⟨BitVec.ofNat 32 (0x00000002 + p.1 * 0x400), a, b⟩ = .command (.fmtPreset p.1) ∧
      (64 ≤ s.config.maxTotalBits → validFormat s.config.maxTotalBits p.2.1 p.2.2 = true) ∧
      exec (.fmtPreset p.1) s =
        .next { s with fmt := ⟨true, p.2.1, p.2.2⟩, responses := s.responses ++ [⟨.ok, .empty⟩] }) ∧
    (∀ p ∈ ([5, 6, 7] : List Nat),
      decodeCommand ⟨BitVec.ofNat 32 (0x00000002 + p * 0x400), a, b⟩ = .command (.fmtPreset p) ∧
      exec (.fmtPreset p) s = .next { s with responses := s.responses ++ [⟨.invalidFormat, .empty⟩] })

/-- 40_format.md R85: FMT.PRESET leaves exactly the state FMT.CUSTOM with its pair leaves, so every later run is the same
after either. -/
def Obligations.PresetIsItsCustomPair : Prop :=
  ∀ (s : State) (n : Nat), 64 ≤ s.config.maxTotalBits →
    ∀ p ∈ ([(0, 5, 10), (1, 8, 7), (2, 8, 10), (3, 8, 23), (4, 11, 52)] : List (Nat × Int × Int)),
      exec (.fmtPreset p.1) s = exec (.fmtCustom p.2.1 p.2.2) s ∧
      Host.Core.run core (n + 1) (placeNext (encode (.fmtPreset p.1)) s) =
        Host.Core.run core (n + 1) (placeNext (encode (.fmtCustom p.2.1 p.2.2)) s)

/-- 40_format.md R86, R87: FMT.QUERY answers `(E, M, T, BIAS, MAXEF, MINNEF)`, exact for every format, and responds
InvalidFormat when no format has been set. -/
def Obligations.FmtQueryResult : Prop :=
  ∀ (s : State) (a b : Int),
    decodeCommand ⟨0x00000003, a, b⟩ = .command .fmtQuery ∧
    (s.fmt.valid = true → exec .fmtQuery s = .next { s with responses := s.responses ++
      [⟨.ok, .constants s.fmt.e s.fmt.m (1 + s.fmt.e + s.fmt.m) (2 ^ (s.fmt.e - 1) - 1) (2 ^ s.fmt.e - 1) 1⟩] }) ∧
    (s.fmt.valid = false → exec .fmtQuery s =
      .next { s with responses := s.responses ++ [⟨.invalidFormat, .empty⟩] })

/-! ## Field split and pack (41_bitlayout.md) -/

/-- 41_bitlayout.md R101: SPLIT answers the raw fields of a T-bit layout, refuses any other integer as MalformedInput, and
responds InvalidFormat when no format is set. -/
def Obligations.SplitResult : Prop :=
  ∀ (s : State) (b : Int) (y : Int),
    decodeCommand ⟨0x00000011, b, y⟩ = .command (.split b) ∧
    (s.fmt.valid = true → 0 ≤ b → b < 2 ^ (1 + s.fmt.e + s.fmt.m) → exec (.split b) s =
      .next { s with responses := s.responses ++ [⟨.ok, .fields (b.toNat / 2 ^ (s.fmt.e + s.fmt.m))
        (b.toNat / 2 ^ s.fmt.m % 2 ^ s.fmt.e) (b.toNat % 2 ^ s.fmt.m)⟩] }) ∧
    (s.fmt.valid = true → b < 0 ∨ 2 ^ (1 + s.fmt.e + s.fmt.m) ≤ b → exec (.split b) s =
      .next { s with responses := s.responses ++ [⟨.malformedInput, .empty⟩] }) ∧
    (s.fmt.valid = false → exec (.split b) s =
      .next { s with responses := s.responses ++ [⟨.invalidFormat, .empty⟩] })

/-- 41_bitlayout.md R102: PACK answers the layout of fields in range, refuses a field outside its width as MalformedInput,
and responds InvalidFormat when no format is set. -/
def Obligations.PackResult : Prop :=
  ∀ (s : State) (sign : Bool) (ef sf : Int),
    decodeCommand ⟨BitVec.ofNat 32 (0x00000012 + bitOf sign * 0x100), ef, sf⟩ = .command (.pack sign ef sf) ∧
    (s.fmt.valid = true → 0 ≤ ef → ef < 2 ^ s.fmt.e → 0 ≤ sf → sf < 2 ^ s.fmt.m → exec (.pack sign ef sf) s =
      .next { s with responses := s.responses ++ [⟨.ok, .bits
        (bitOf sign * 2 ^ (s.fmt.e + s.fmt.m) + ef.toNat * 2 ^ s.fmt.m + sf.toNat)⟩] }) ∧
    (s.fmt.valid = true → ef < 0 ∨ 2 ^ s.fmt.e ≤ ef ∨ sf < 0 ∨ 2 ^ s.fmt.m ≤ sf → exec (.pack sign ef sf) s =
      .next { s with responses := s.responses ++ [⟨.malformedInput, .empty⟩] }) ∧
    (s.fmt.valid = false → exec (.pack sign ef sf) s =
      .next { s with responses := s.responses ++ [⟨.invalidFormat, .empty⟩] })

/-- 41_bitlayout.md R103: split and pack are inverse bijections between the T-bit layouts and the fields in range, and so
SPLIT of a PACK result answers the packed fields and PACK of a SPLIT result answers the split layout. -/
def Obligations.SplitAndPackAreInverse : Prop :=
  (∀ e m b : Nat, b < 2 ^ (1 + e + m) →
    (splitFields e m b).sign < 2 ∧ (splitFields e m b).ef < 2 ^ e ∧ (splitFields e m b).sf < 2 ^ m ∧
    packFields e m (splitFields e m b).sign (splitFields e m b).ef (splitFields e m b).sf = b) ∧
  (∀ e m sign ef sf : Nat, sign < 2 → ef < 2 ^ e → sf < 2 ^ m →
    packFields e m sign ef sf < 2 ^ (1 + e + m) ∧ splitFields e m (packFields e m sign ef sf) = ⟨sign, ef, sf⟩) ∧
  (∀ (s : State) (sign : Bool) (ef sf b : Nat),
    exec (.pack sign ef sf) s = .next { s with responses := s.responses ++ [⟨.ok, .bits b⟩] } ↔
      exec (.split b) s = .next { s with responses := s.responses ++ [⟨.ok, .fields (bitOf sign) ef sf⟩] })

/-! ## bit_classifier (42_classifier.md) -/

/-- 42_classifier.md R121: the five classes of fields in range, each exactly on its own condition. -/
def Obligations.ClassesPartitionTheFields : Prop :=
  ∀ e m ef sf : Nat, 1 ≤ e → ef < 2 ^ e → sf < 2 ^ m →
    (classOf e ef sf = .zero ↔ ef = 0 ∧ sf = 0) ∧
    (classOf e ef sf = .subnormal ↔ ef = 0 ∧ sf ≠ 0) ∧
    (classOf e ef sf = .normal ↔ 0 < ef ∧ ef < 2 ^ e - 1) ∧
    (classOf e ef sf = .infinity ↔ ef = 2 ^ e - 1 ∧ sf = 0) ∧
    (classOf e ef sf = .nan ↔ ef = 2 ^ e - 1 ∧ sf ≠ 0)

/-- 42_classifier.md R120, R122: CLASSIFY answers the code of the class of fields in range, whatever the sign bit, refuses
a field outside its width as MalformedInput, and responds InvalidFormat when no format is set. -/
def Obligations.ClassifyResult : Prop :=
  ∀ (s : State) (sign : Bool) (ef sf : Int),
    decodeCommand ⟨BitVec.ofNat 32 (0x00000010 + bitOf sign * 0x100), ef, sf⟩ = .command (.classify sign ef sf) ∧
    (s.fmt.valid = true → 0 ≤ ef → ef < 2 ^ s.fmt.e → 0 ≤ sf → sf < 2 ^ s.fmt.m →
      exec (.classify sign ef sf) s = .next { s with responses := s.responses ++ [⟨.ok, .cls
        (if ef = 0 ∧ sf = 0 then 0 else if ef = 0 then 1 else if ef < 2 ^ s.fmt.e - 1 then 2
          else if sf = 0 then 3 else 4)⟩] }) ∧
    (s.fmt.valid = true → ef < 0 ∨ 2 ^ s.fmt.e ≤ ef ∨ sf < 0 ∨ 2 ^ s.fmt.m ≤ sf → exec (.classify sign ef sf) s =
      .next { s with responses := s.responses ++ [⟨.malformedInput, .empty⟩] }) ∧
    (s.fmt.valid = false → exec (.classify sign ef sf) s =
      .next { s with responses := s.responses ++ [⟨.invalidFormat, .empty⟩] })

/-- 42_classifier.md R124: how many layouts of a format have each class, both signs counted. -/
def Obligations.ClassCountsOfAFormat : Prop :=
  ∀ e m : Nat, 1 ≤ e →
    let count (c : Sys2Proof.Class) : Nat :=
      ((List.range (2 ^ (1 + e + m))).filter fun b => classOf e (splitFields e m b).ef (splitFields e m b).sf = c).length
    count .zero = 2 ∧ count .subnormal = 2 * (2 ^ m - 1) ∧ count .normal = 2 * (2 ^ e - 2) * 2 ^ m ∧
    count .infinity = 2 ∧ count .nan = 2 * (2 ^ m - 1)

/-! ## fp_decoder (43_decoder.md) -/

/-- 43_decoder.md R132: the reduced form of `(-1)^sign * g * 2^k` equals it, has a power-of-two denominator and is in lowest
terms, with both zeros `(0, 1)`. -/
def Obligations.ReducedFormIsExactAndInLowestTerms : Prop :=
  ∀ (sign g : Nat) (k : Int), sign < 2 →
    Reference.ReducedTo ((-1) ^ sign * (g : ℚ) * Reference.pow2 k) (reduceDyadic sign g k).1 (reduceDyadic sign g k).2 ∧
    (g = 0 → reduceDyadic sign g k = (0, 1))

/-- 43_decoder.md R130 to R134: DECODE answers the class, the raw fields and, exactly for the finite classes, the exact
value as a reduced fraction. It refuses any integer that is no T-bit layout as MalformedInput, and responds InvalidFormat
when no format is set. -/
def Obligations.DecodeResult : Prop :=
  ∀ (s : State) (b y : Int),
    decodeCommand ⟨0x00000020, b, y⟩ = .command (.decode b) ∧
    (s.fmt.valid = true → 1 ≤ s.fmt.e → 0 ≤ b → b < 2 ^ (1 + s.fmt.e + s.fmt.m) →
      ∀ sign ef sf : Nat, sign = b.toNat / 2 ^ (s.fmt.e + s.fmt.m) → ef = b.toNat / 2 ^ s.fmt.m % 2 ^ s.fmt.e →
        sf = b.toNat % 2 ^ s.fmt.m →
        ∃ v : Option (Int × Nat),
          exec (.decode b) s = .next { s with responses := s.responses ++ [⟨.ok, .decoded
            (if ef = 0 ∧ sf = 0 then 0 else if ef = 0 then 1 else if ef < 2 ^ s.fmt.e - 1 then 2
              else if sf = 0 then 3 else 4) sign ef sf v⟩] } ∧
          (ef = 2 ^ s.fmt.e - 1 → v = none) ∧
          (ef < 2 ^ s.fmt.e - 1 → ∃ num den, v = some (num, den) ∧
            Reference.ReducedTo (Reference.value s.fmt.e s.fmt.m sign ef sf) num den)) ∧
    (s.fmt.valid = true → b < 0 ∨ 2 ^ (1 + s.fmt.e + s.fmt.m) ≤ b → exec (.decode b) s =
      .next { s with responses := s.responses ++ [⟨.malformedInput, .empty⟩] }) ∧
    (s.fmt.valid = false → exec (.decode b) s =
      .next { s with responses := s.responses ++ [⟨.invalidFormat, .empty⟩] })

/-- 43_decoder.md R136: over the finite positive layouts the decoded value is strictly increasing, and consecutive ones
differ by `2^scaleExp` of the lower one's exponent field, across the step from subnormal to normal too. -/
def Obligations.FiniteValuesIncreaseByOneUlp : Prop :=
  ∀ e m : Nat, 1 ≤ e →
    let v (b : Nat) : ℚ := ((valueOf e m (splitFields e m b)).1 : ℚ) / ((valueOf e m (splitFields e m b)).2 : ℚ)
    (∀ b b' : Nat, b < b' → b' < (2 ^ e - 1) * 2 ^ m → v b < v b') ∧
    (∀ b : Nat, b + 1 < (2 ^ e - 1) * 2 ^ m →
      v (b + 1) - v b = Reference.pow2 (Reference.scaleExp e m (b / 2 ^ m))) ∧
    Reference.scaleExp e m 0 = Reference.scaleExp e m 1 ∧
    Reference.scaleExp e m 1 = 1 - Reference.bias e - m

/-! ## fp_encoder (44_encoder.md) -/

/-- 44_encoder.md R151: the one comparison gives the unique integer `e` with `2^e <= q < 2^(e+1)`, and `e` is `e0` exactly
when `2^e0 <= q`, else `e0 - 1`, for `e0` the difference of the bit lengths. -/
def Obligations.BinaryExponentIsFloorLog2 : Prop :=
  ∀ q : Frac, 1 ≤ q.num → 1 ≤ q.den →
    Reference.pow2 q.floorLog2 ≤ Reference.magnitude q ∧
    Reference.magnitude q < Reference.pow2 (q.floorLog2 + 1) ∧
    (∀ k : Int, Reference.pow2 k ≤ Reference.magnitude q → Reference.magnitude q < Reference.pow2 (k + 1) →
      k = q.floorLog2) ∧
    let e0 : Int := (Nat.size q.num : Int) - (Nat.size q.den : Int)
    (Reference.pow2 e0 ≤ Reference.magnitude q → q.floorLog2 = e0) ∧
    (Reference.magnitude q < Reference.pow2 e0 → q.floorLog2 = e0 - 1)

/-- 44_encoder.md R152: the integer rounding of the encoder is RNE: the nearest integer, and of two equally near the even
one. -/
def Obligations.RoundingIsNearestTiesToEven : Prop :=
  ∀ q : Frac, 1 ≤ q.den →
    (q.roundNearestEven : ℤ) = Reference.rne (Reference.magnitude q) ∧
    (∀ n : ℤ, |Reference.magnitude q - (q.roundNearestEven : ℚ)| ≤ |Reference.magnitude q - (n : ℚ)|) ∧
    (∀ n : ℤ, n ≠ (q.roundNearestEven : ℤ) →
      |Reference.magnitude q - (q.roundNearestEven : ℚ)| = |Reference.magnitude q - (n : ℚ)| →
      q.roundNearestEven % 2 = 0)

/-- 44_encoder.md R153: the encoder on fractions of naturals is the encoding function of the spec on exact rationals, for
every format, sign and magnitude. That the encoder works on pairs of naturals is the model's form (log entry 23). -/
def Obligations.EncoderRefinesTheRationalEncoder : Prop :=
  ∀ (cfg : Config) (e m sign : Nat) (q : Frac), 1 ≤ q.den →
    (encodeFinite cfg e m sign q : ℤ) = Reference.encodeFinite cfg.negzeroIn e m sign (Reference.magnitude q)

/-- 44_encoder.md R154: in the normal range the scaled significand lies in `[2^M, 2^(M+1))` and its rounding `N` in
`2^M .. 2^(M+1)`. The result's exponent field is `e + BIAS` and its significand field `N - 2^M`, but `N = 2^(M+1)` carries
into the exponent field, and a carry that reaches MAXEF gives INFINITY. -/
def Obligations.NormalRangeCarriesIntoTheExponent : Prop :=
  ∀ (cfg : Config) (e m sign : Nat) (q : Frac) (x : Nat), 1 ≤ e → 1 ≤ q.num → 1 ≤ q.den →
    (x : Int) = q.floorLog2 + (bias e : Nat) → 1 ≤ x → x < maxExponentField e →
    let N := Reference.rne (Reference.magnitude q / Reference.pow2 (q.floorLog2 - m))
    (2 : ℚ) ^ m ≤ Reference.magnitude q / Reference.pow2 (q.floorLog2 - m) ∧
    Reference.magnitude q / Reference.pow2 (q.floorLog2 - m) < (2 : ℚ) ^ (m + 1) ∧
    2 ^ m ≤ N ∧ N ≤ 2 ^ (m + 1) ∧
    (N < 2 ^ (m + 1) → encodeFinite cfg e m sign q = packFields e m sign x (N.toNat - 2 ^ m)) ∧
    (N = 2 ^ (m + 1) → encodeFinite cfg e m sign q = packFields e m sign (x + 1) 0) ∧
    (N = 2 ^ (m + 1) → x + 1 = maxExponentField e →
      encodeFinite cfg e m sign q = packFields e m sign (maxExponentField e) 0)

/-- 44_encoder.md R155, R158: below the normal range the significand is rounded on the grid of `2^(1 - BIAS - M)`. `N` in
`1 .. 2^M - 1` is a subnormal with significand field `N`, `N = 2^M` carries to exponent field 1 (INFINITY when `E = 1`), and
`N = 0` is a zero with the input's own sign, whatever NEGZERO_IN is. -/
def Obligations.SubnormalRangeRoundsOnItsGrid : Prop :=
  ∀ (cfg : Config) (e m sign : Nat) (q : Frac), 1 ≤ e → 1 ≤ q.num → 1 ≤ q.den →
    q.floorLog2 + (bias e : Nat) < 1 →
    let N := Reference.rne (Reference.magnitude q / Reference.pow2 (1 - Reference.bias e - m))
    0 ≤ N ∧ N ≤ 2 ^ m ∧
    (1 ≤ N → N < 2 ^ m → encodeFinite cfg e m sign q = packFields e m sign 0 N.toNat) ∧
    (N = 2 ^ m → encodeFinite cfg e m sign q = packFields e m sign 1 0) ∧
    (N = 2 ^ m → e = 1 → encodeFinite cfg e m sign q = packFields e m sign (maxExponentField e) 0) ∧
    (N = 0 → encodeFinite cfg e m sign q = packFields e m sign 0 0)

/-- 44_encoder.md R156: an exact zero encodes to a zero whose sign is the header's when NEGZERO_IN is true and 0 when it is
false, whatever the denominator. -/
def Obligations.ExactZeroSignFollowsTheParameter : Prop :=
  ∀ (s : State) (sign : Bool) (den exp10 : Int), s.fmt.valid = true → 1 ≤ den →
    (s.config.negzeroIn = true →
      exec (.encodeRat sign 0 den) s = .next { s with responses := s.responses ++
        [⟨.ok, .bits (bitOf sign * 2 ^ (s.fmt.e + s.fmt.m))⟩] } ∧
      exec (.encodeDec sign 0 exp10) s = .next { s with responses := s.responses ++
        [⟨.ok, .bits (bitOf sign * 2 ^ (s.fmt.e + s.fmt.m))⟩] }) ∧
    (s.config.negzeroIn = false →
      exec (.encodeRat sign 0 den) s = .next { s with responses := s.responses ++ [⟨.ok, .bits 0⟩] } ∧
      exec (.encodeDec sign 0 exp10) s = .next { s with responses := s.responses ++ [⟨.ok, .bits 0⟩] })

/-- 44_encoder.md R157: the result is INFINITY with the input's sign exactly when the rounded magnitude reaches
`MAXEF * 2^M`, which an unrounded `e + BIAS >= MAXEF` always does. -/
def Obligations.OverflowIsTestedOnTheRoundedResult : Prop :=
  ∀ (cfg : Config) (e m sign : Nat) (q : Frac), 1 ≤ e → sign < 2 → 1 ≤ q.num → 1 ≤ q.den →
    (encodeFinite cfg e m sign q = packFields e m sign (maxExponentField e) 0 ↔
      (2 ^ e - 1 : ℤ) * 2 ^ m ≤ Reference.rounded e m (Reference.magnitude q)) ∧
    ((2 ^ e - 1 : ℤ) ≤ q.floorLog2 + Reference.bias e →
      encodeFinite cfg e m sign q = packFields e m sign (maxExponentField e) 0)

/-- 44_encoder.md R159, Zero: a positive magnitude encodes to a zero exactly when it is at most half the smallest
subnormal. -/
def Obligations.UnderflowThreshold : Prop :=
  ∀ (cfg : Config) (e m sign : Nat) (q : Frac), 1 ≤ e → sign < 2 → 1 ≤ q.num → 1 ≤ q.den →
    (encodeFinite cfg e m sign q % 2 ^ (e + m) = 0 ↔
      Reference.magnitude q ≤ Reference.pow2 (-Reference.bias e - m))

/-- 44_encoder.md R159, Overflow: the magnitude encodes to INFINITY exactly when it is at least the largest finite value
plus half its unit in the last place (`E >= 2`), at least `(2^M - 1/2) * 2^(1-M)` (`E = 1`, `M >= 1`), or more than 1
(`E = 1`, `M = 0`). -/
def Obligations.OverflowThreshold : Prop :=
  ∀ (cfg : Config) (e m sign : Nat) (q : Frac), 1 ≤ e → sign < 2 → 1 ≤ q.num → 1 ≤ q.den →
    let isInfinity := encodeFinite cfg e m sign q = packFields e m sign (maxExponentField e) 0
    (2 ≤ e → (isInfinity ↔
      (2 ^ (m + 1) - 1) * Reference.pow2 (Reference.maxef e - 1 - Reference.bias e - m) +
        Reference.pow2 (Reference.maxef e - 2 - Reference.bias e - m) ≤ Reference.magnitude q)) ∧
    (e = 1 → 1 ≤ m → (isInfinity ↔ (2 ^ m - 1 / 2 : ℚ) * Reference.pow2 (1 - m) ≤ Reference.magnitude q)) ∧
    (e = 1 → m = 0 → (isInfinity ↔ 1 < Reference.magnitude q))

/-- 44_encoder.md R159, Nearest value and Ties: a result that is not INFINITY is a finite layout whose value is nearest to
the magnitude, and for `M >= 1` one that is no nearer than another finite layout is even. -/
def Obligations.EncoderGivesTheNearestValue : Prop :=
  ∀ (cfg : Config) (e m : Nat) (q : Frac), 1 ≤ e → 1 ≤ q.num → 1 ≤ q.den →
    let b := encodeFinite cfg e m 0 q
    b < (2 ^ e - 1) * 2 ^ m → ∀ b' : Nat, b' < (2 ^ e - 1) * 2 ^ m →
      |Reference.magnitude q - Reference.positiveValue e m b| ≤
        |Reference.magnitude q - Reference.positiveValue e m b'| ∧
      (1 ≤ m → b' ≠ b → |Reference.magnitude q - Reference.positiveValue e m b| =
        |Reference.magnitude q - Reference.positiveValue e m b'| → b % 2 = 0)

/-- 44_encoder.md R159, Ties with `M = 0`: a tie at `1.5 * 2^x` in the normal range goes up to `2^(x+1)`, and the tie at half
the smallest normal goes to 0. -/
def Obligations.TiesWithoutSignificandBits : Prop :=
  ∀ (cfg : Config) (e sign : Nat) (q : Frac) (x : Nat), 1 ≤ e → 1 ≤ q.den →
    (1 ≤ x → x < 2 ^ e - 1 → Reference.magnitude q = 3 / 2 * Reference.pow2 (x - Reference.bias e) →
      encodeFinite cfg e 0 sign q = packFields e 0 sign (x + 1) 0) ∧
    (Reference.magnitude q = Reference.pow2 (-Reference.bias e) → encodeFinite cfg e 0 sign q = packFields e 0 sign 0 0)

/-- 44_encoder.md R160: ENCODE.RAT answers the encoding of `num / den` with the header's sign, refuses a negative operand
as MalformedInput and then a zero denominator as UnrepresentableInput, and responds InvalidFormat when no format is set. -/
def Obligations.EncodeRatResult : Prop :=
  ∀ (s : State) (sign : Bool) (num den : Int),
    decodeCommand ⟨BitVec.ofNat 32 (0x00000030 + bitOf sign * 0x100), num, den⟩ = .command (.encodeRat sign num den) ∧
    (s.fmt.valid = true → 0 ≤ num → 1 ≤ den → ∃ b : Nat,
      exec (.encodeRat sign num den) s = .next { s with responses := s.responses ++ [⟨.ok, .bits b⟩] } ∧
      (b : ℤ) = Reference.encodeFinite s.config.negzeroIn s.fmt.e s.fmt.m (bitOf sign) ((num : ℚ) / (den : ℚ))) ∧
    (s.fmt.valid = true → num < 0 ∨ den < 0 → exec (.encodeRat sign num den) s =
      .next { s with responses := s.responses ++ [⟨.malformedInput, .empty⟩] }) ∧
    (s.fmt.valid = true → 0 ≤ num → den = 0 → exec (.encodeRat sign num den) s =
      .next { s with responses := s.responses ++ [⟨.unrepresentableInput, .empty⟩] }) ∧
    (s.fmt.valid = false → exec (.encodeRat sign num den) s =
      .next { s with responses := s.responses ++ [⟨.invalidFormat, .empty⟩] })

/-- 44_encoder.md R161: ENCODE.DEC answers the encoding of the exact `digits * 10^exp10` with the header's sign for every
exponent, refuses negative digits as MalformedInput, and responds InvalidFormat when no format is set. -/
def Obligations.EncodeDecResult : Prop :=
  ∀ (s : State) (sign : Bool) (digits exp10 : Int),
    decodeCommand ⟨BitVec.ofNat 32 (0x00000031 + bitOf sign * 0x100), digits, exp10⟩ =
      .command (.encodeDec sign digits exp10) ∧
    (s.fmt.valid = true → 0 ≤ digits → ∃ b : Nat,
      exec (.encodeDec sign digits exp10) s = .next { s with responses := s.responses ++ [⟨.ok, .bits b⟩] } ∧
      (b : ℤ) = Reference.encodeFinite s.config.negzeroIn s.fmt.e s.fmt.m (bitOf sign)
        ((digits : ℚ) * (10 : ℚ) ^ exp10)) ∧
    (s.fmt.valid = true → digits < 0 → exec (.encodeDec sign digits exp10) s =
      .next { s with responses := s.responses ++ [⟨.malformedInput, .empty⟩] }) ∧
    (s.fmt.valid = false → exec (.encodeDec sign digits exp10) s =
      .next { s with responses := s.responses ++ [⟨.invalidFormat, .empty⟩] })

/-- 44_encoder.md R162: with NONFINITE_ENABLE true, ENCODE.NF answers the signed INFINITY, or for `M >= 1` a NaN with the
parameter's significand (a value in `1 .. 2^M - 1`). A NaN with `M = 0`, and every ENCODE.NF with NONFINITE_ENABLE false,
is UnrepresentableInput. It responds InvalidFormat when no format is set. -/
def Obligations.EncodeNfResult : Prop :=
  ∀ (s : State) (sign : Bool) (k : NonFinite) (a b : Int),
    decodeCommand ⟨BitVec.ofNat 32 (0x00000032 + bitOf sign * 0x100 + (if k = .nan then 0x200 else 0)), a, b⟩ =
      .command (.encodeNf sign k) ∧
    (s.fmt.valid = true → s.config.nonfiniteEnable = true → k = .infinity → exec (.encodeNf sign k) s =
      .next { s with responses := s.responses ++ [⟨.ok, .bits
        (bitOf sign * 2 ^ (s.fmt.e + s.fmt.m) + (2 ^ s.fmt.e - 1) * 2 ^ s.fmt.m)⟩] }) ∧
    (s.fmt.valid = true → s.config.nonfiniteEnable = true → k = .nan → 1 ≤ s.fmt.m → s.config.wf → ∃ n : Nat,
      exec (.encodeNf sign k) s = .next { s with responses := s.responses ++ [⟨.ok, .bits
        (bitOf sign * 2 ^ (s.fmt.e + s.fmt.m) + (2 ^ s.fmt.e - 1) * 2 ^ s.fmt.m + n)⟩] } ∧
      n = nanSignificand s.config s.fmt.m ∧ 1 ≤ n ∧ n < 2 ^ s.fmt.m) ∧
    (s.fmt.valid = true → s.config.nonfiniteEnable = false ∨ (k = .nan ∧ s.fmt.m = 0) → exec (.encodeNf sign k) s =
      .next { s with responses := s.responses ++ [⟨.unrepresentableInput, .empty⟩] }) ∧
    (s.fmt.valid = false → exec (.encodeNf sign k) s =
      .next { s with responses := s.responses ++ [⟨.invalidFormat, .empty⟩] })

/-- 44_encoder.md R164: encoding the value of any finite layout gives the layout back, but that -0 gives +0 when NEGZERO_IN
is false. -/
def Obligations.EncodingADecodedValueGivesTheLayoutBack : Prop :=
  ∀ (cfg : Config) (e m b : Nat), 1 ≤ e → b < 2 ^ (1 + e + m) → (splitFields e m b).ef < 2 ^ e - 1 →
    encodeFinite cfg e m (splitFields e m b).sign
      ⟨(valueOf e m (splitFields e m b)).1.natAbs, (valueOf e m (splitFields e m b)).2⟩ =
      if cfg.negzeroIn = false ∧ b = 2 ^ (e + m) then 0 else b

/-- 44_encoder.md R165: for a fixed sign the encoded layout never decreases as the magnitude grows, across exponent fields
and up to INFINITY. -/
def Obligations.EncodingIsMonotone : Prop :=
  ∀ (cfg : Config) (e m sign : Nat) (q q' : Frac), 1 ≤ e → sign < 2 → 1 ≤ q.den → 1 ≤ q'.den →
    Reference.magnitude q ≤ Reference.magnitude q' → encodeFinite cfg e m sign q ≤ encodeFinite cfg e m sign q'

/-- 44_encoder.md R166: every encode result has T bits, and its hex form has exactly `ceil(T/4)` digits. -/
def Obligations.EncodeResultsHaveTBits : Prop :=
  ∀ (i : Instr) (s t : State) (b : Nat),
    ((∃ sign num den, i = .encodeRat sign num den) ∨ (∃ sign digits exp10, i = .encodeDec sign digits exp10) ∨
      (∃ sign k, i = .encodeNf sign k)) →
    s.config.wf → exec i s = .next t → t.responses = s.responses ++ [⟨.ok, .bits b⟩] →
    b < 2 ^ (1 + s.fmt.e + s.fmt.m) ∧
    ((toHex b (1 + s.fmt.e + s.fmt.m)).length : ℤ) = ⌈((1 + s.fmt.e + s.fmt.m : ℕ) : ℚ) / 4⌉

/-- 44_encoder.md R167: halfway between 1 and the next value up goes to the layout of 1, and halfway between the next two to
the even one, in every format with `E >= 2` and `M >= 1`, the presets among them. -/
def Obligations.TiesNextToOneGoToEven : Prop :=
  ∀ (cfg : Config) (e m : Nat) (q : Frac), 2 ≤ e → 1 ≤ m → 1 ≤ q.den →
    (Reference.magnitude q = 1 + Reference.pow2 (-(m + 1)) →
      encodeFinite cfg e m 0 q = packFields e m 0 (bias e) 0) ∧
    (Reference.magnitude q = 1 + 3 * Reference.pow2 (-(m + 1)) →
      encodeFinite cfg e m 0 q = packFields e m 0 (bias e) 0 + 2)

/-- 44_encoder.md R168: the sign bit of an encode result is the header's, for non-zero results, INFINITY, NaN and underflowed
zeros, and only an exact zero carries `zeroSign` instead. -/
def Obligations.EncodeResultsCarryTheHeaderSign : Prop :=
  ∀ (s t : State) (sign : Bool) (b : Nat), s.config.wf → t.responses = s.responses ++ [⟨.ok, .bits b⟩] →
    (∀ num den, exec (.encodeRat sign num den) s = .next t → b / 2 ^ (s.fmt.e + s.fmt.m) =
      if num = 0 ∧ s.config.negzeroIn = false then 0 else bitOf sign) ∧
    (∀ digits exp10, exec (.encodeDec sign digits exp10) s = .next t → b / 2 ^ (s.fmt.e + s.fmt.m) =
      if digits = 0 ∧ s.config.negzeroIn = false then 0 else bitOf sign) ∧
    (∀ k, exec (.encodeNf sign k) s = .next t → b / 2 ^ (s.fmt.e + s.fmt.m) = bitOf sign)

/-! ## Host adaptor (45_host_text.md) -/

/-- 45_host_text.md R190, R192, R196, R197: reading the hex form of a layout gives the layout back, the hex form has
`ceil(T/4)` uppercase digits, and what any accepted string gives is a T-bit layout. -/
def Obligations.HexFormsReadBack : Prop :=
  ∀ t : Nat, 1 ≤ t →
    (∀ b : Nat, b < 2 ^ t → fromHex (toHex b t) t = .value b ∧ (toHex b t).length = (t + 3) / 4 ∧
      ∀ c ∈ toHex b t, c ∈ "0123456789ABCDEF".toList) ∧
    (∀ (str : Text) (b : Nat), fromHex str t = .value b → b < 2 ^ t)

/-- 45_host_text.md R191, R192: a string is accepted exactly when it is not empty, holds hex digits only and spells less
than `2^T` in base 16, and it then gives the number it spells. Any other string is MalformedInput. So letter case does not
matter, and neither does a leading zero before a string that is not empty, whether the string is accepted or refused. -/
def Obligations.HexReadingIgnoresCaseAndLeadingZeros : Prop :=
  ∀ (str : Text) (t : Nat),
    let spelled := Nat.ofDigits 16 (str.map fun c => "0123456789abcdef".toList.idxOf c.toLower).reverse
    let wellFormed := str ≠ [] ∧ (∀ c ∈ str, c ∈ "0123456789abcdefABCDEF".toList) ∧ spelled < 2 ^ t
    (wellFormed → fromHex str t = .value spelled) ∧
    (¬ wellFormed → fromHex str t = .error .malformedInput) ∧
    fromHex (str.map Char.toLower) t = fromHex str t ∧ fromHex (str.map Char.toUpper) t = fromHex str t ∧
    (str ≠ [] → fromHex ('0' :: str) t = fromHex str t)

/-- 45_host_text.md R194, R195, R197: the binary form of a layout and reading it are inverse in both directions. -/
def Obligations.BinaryFormsAreInverse : Prop :=
  ∀ t : Nat,
    (∀ b : Nat, b < 2 ^ t → (toBitString b t).length = t ∧ fromBitString (toBitString b t) t = .value b) ∧
    (∀ (str : Text) (b : Nat), fromBitString str t = .value b → b < 2 ^ t ∧ toBitString b t = str)

/-- 45_host_text.md R198 to R201: the parser gives a command exactly for the strings of the grammar, the one R199 and R200
assign, and MalformedInput for every other string. -/
def Obligations.ParserAcceptsExactlyTheGrammar : Prop :=
  ∀ str : Text,
    (∀ i : Instr, parseDecimal str = .value i ↔
      (∃ neg digits exp10, Grammar.Decimal str neg digits exp10 ∧ i = .encodeDec neg digits exp10) ∨
      (∃ neg k, Grammar.Nonfinite str neg k ∧ i = .encodeNf neg k)) ∧
    ((∀ neg digits exp10, ¬ Grammar.Decimal str neg digits exp10) → (∀ neg k, ¬ Grammar.Nonfinite str neg k) →
      parseDecimal str = .error .malformedInput)

/-- 45_host_text.md R204 to R208: the report of a DECODE that answered OK has the keys of R204, with the text forms of the
layout, the class name and the raw fields, and `fraction` exactly for the finite classes, holding the decimal forms of the
reduced pair (DecimalFormSpellsTheNumber says what these are). The order of the keys is the model's choice (log entry
16). -/
def Obligations.ReportHasFractionExactlyForFiniteValues : Prop :=
  ∀ (e m b : Nat), 1 ≤ e → b < 2 ^ (1 + e + m) → ∃ rep : Report,
    report (1 + e + m) b ⟨.ok, decodeLayout e m b⟩ = some rep ∧
    rep.map Prod.fst = ["hex".toList, "bits".toList, "type".toList, "sign".toList, "exponent".toList,
      "significand".toList] ++ (if (splitFields e m b).ef < 2 ^ e - 1 then ["fraction".toList] else []) ∧
    ("hex".toList, ReportValue.string (toHex b (1 + e + m))) ∈ rep ∧
    ("bits".toList, ReportValue.string (toBitString b (1 + e + m))) ∈ rep ∧
    ("type".toList, ReportValue.string
      (if (splitFields e m b).ef = 0 ∧ (splitFields e m b).sf = 0 then "ZERO".toList
        else if (splitFields e m b).ef = 0 then "SUBNORMAL".toList
        else if (splitFields e m b).ef < 2 ^ e - 1 then "NORMAL".toList
        else if (splitFields e m b).sf = 0 then "INFINITY".toList else "NAN".toList)) ∈ rep ∧
    ("sign".toList, ReportValue.integer (splitFields e m b).sign) ∈ rep ∧
    ("exponent".toList, ReportValue.integer (splitFields e m b).ef) ∈ rep ∧
    ("significand".toList, ReportValue.integer (splitFields e m b).sf) ∈ rep ∧
    (∀ num den, ("fraction".toList, ReportValue.fraction num den) ∈ rep ↔ (splitFields e m b).ef < 2 ^ e - 1 ∧
      num = intText (valueOf e m (splitFields e m b)).1 ∧ den = natText (valueOf e m (splitFields e m b)).2)

/-- 45_host_text.md R208: the decimal form of a natural spells it, with no leading zero. The decimal form of an integer is
that of its absolute value, with a leading `-` exactly when it is negative. -/
def Obligations.DecimalFormSpellsTheNumber : Prop :=
  (∀ n : Nat, Grammar.Digits (natText n) ∧ Grammar.spelled (natText n) = n ∧ (n ≠ 0 → (natText n).head? ≠ some '0')) ∧
  (∀ x : Int, ∃ ds : Text, Grammar.Digits ds ∧ Grammar.spelled ds = x.natAbs ∧ (x ≠ 0 → ds.head? ≠ some '0') ∧
    (0 ≤ x → intText x = ds) ∧ (x < 0 → intText x = '-' :: ds))

/-- 45_host_text.md R215 to R217: the enumerator yields `0 .. min(limit, 2^T) - 1` in ascending order, by default the whole
space up to 16 bits and ENUM_SAMPLE_LIMIT patterns above, each a layout that DECODE answers OK. Chunks put together in order
are the whole. -/
def Obligations.EnumeratorYieldsDecodablePrefix : Prop :=
  (∀ (s : State) (limit : Option Nat), s.fmt.valid = true →
    let t := 1 + s.fmt.e + s.fmt.m
    let n := min (match limit with
      | some l => l
      | none => if t ≤ 16 then 2 ^ t else s.config.enumSampleLimit) (2 ^ t)
    enumerate s.config t limit = List.range n ∧
    ∀ b ∈ enumerate s.config t limit, ∃ p, exec (.decode (b : Nat)) s =
      .next { s with responses := s.responses ++ [⟨.ok, p⟩] }) ∧
  (∀ (cfg : Config) (t k : Nat) (limit : Option Nat), k ≤ enumerateCount cfg t limit →
    enumerateChunk 0 k ++ enumerateChunk k (enumerateCount cfg t limit - k) = enumerate cfg t limit)

/-- 70_reset_and_hazards.md R263: after an OK of FMT.CUSTOM, FMT.PRESET or FMT.QUERY the host's copy of the total width is
`1 + E + M` of the format the block is left with, and any other command or status leaves the copy as it was. So a copy that
is right, or absent, stays so, and with no format set it stays absent. After a reset the copy is discarded, and the block
has no format set. That the copy is moved on by functions is the model's form (log entry 21). -/
def Obligations.HostWidthCopyFollowsTheBlock : Prop :=
  (∀ (i : Instr) (s t : State) (r : Response) (copy : Option Nat),
    exec i s = .next t → t.responses = s.responses ++ [r] →
    let readsWidth := (∃ e m, i = .fmtCustom e m) ∨ (∃ p, i = .fmtPreset p) ∨ i = .fmtQuery
    (readsWidth → r.status = .ok → trackWidth copy i r = some (1 + t.fmt.e + t.fmt.m)) ∧
    (readsWidth → r.status ≠ .ok → trackWidth copy i r = copy) ∧
    (¬ readsWidth → trackWidth copy i r = copy) ∧
    ((s.fmt.valid = true → ∀ w, copy = some w → w = 1 + s.fmt.e + s.fmt.m) → (s.fmt.valid = false → copy = none) →
      (t.fmt.valid = true → ∀ w, trackWidth copy i r = some w → w = 1 + t.fmt.e + t.fmt.m) ∧
      (t.fmt.valid = false → trackWidth copy i r = none))) ∧
  (∀ (s : State) (cutOff : Option Command) (rest : List Event) (copy : Option Nat), s.pending = .reset cutOff :: rest →
    ∃ t, step s = .next t ∧ t.fmt.valid = false ∧ discardWidth copy = none)
end

