-- ==== Sys2Proof/Laws/Decode.lean ====
section
/-! SUPPORT. The header fields as arithmetic on the header's number (30_encoding.md R51), what the decoder can answer,
and the fields of an encoded header. -/

namespace Sys2Proof

/-! ## Fields as arithmetic -/

theorem opcField_eq (h : Header) : opcField h = h.toNat % 256 := by
  simp [opcField, BitVec.extractLsb'_toNat]

theorem signField_eq (h : Header) : signField h = decide (h.toNat / 256 % 2 = 1) := by
  simp [signField, BitVec.getLsbD, Nat.testBit_eq_decide_div_mod_eq]

theorem kindField_eq (h : Header) : kindField h = if h.toNat / 512 % 2 = 1 then .nan else .infinity := by
  simp [kindField, BitVec.getLsbD, Nat.testBit_eq_decide_div_mod_eq]

theorem presetField_eq (h : Header) : presetField h = h.toNat / 1024 % 8 := by
  simp [presetField, BitVec.extractLsb'_toNat, Nat.shiftRight_eq_div_pow]

theorem reservedField_eq (h : Header) : reservedField h = h.toNat / 8192 := by
  have := h.isLt
  simp [reservedField, BitVec.extractLsb'_toNat, Nat.shiftRight_eq_div_pow]
  omega

theorem presetField_lt (h : Header) : presetField h < 8 := by
  rw [presetField_eq]; omega

/-! ## What the decoder can answer -/

/-- The command named by the opcode, then the checks of 30_encoding.md R54. -/
theorem decodeCommand_eq_command {c : Command} {i : Instr} :
    decodeCommand c = .command i ↔
      fromOpcode c = some i ∧ reservedField c.hdr = 0 ∧ unusedFieldSet i c.hdr = false := by
  unfold decodeCommand
  cases hf : fromOpcode c with
  | none => simp
  | some j =>
    by_cases hr : reservedField c.hdr = 0
    · cases hu : unusedFieldSet j c.hdr
      · simp only [hr, hu]; constructor
        · intro h; simp at h; subst h; exact ⟨rfl, trivial, hu⟩
        · rintro ⟨h, _, _⟩; cases h; simp
      · simp only [hr, hu]; constructor
        · intro h; simp at h
        · rintro ⟨h, _, h'⟩; cases h; simp [hu] at h'
    · simp [hr]

/-- The opcodes of 30_encoding.md R55 and the command each names. -/
theorem fromOpcode_eq_some {c : Command} {i : Instr} :
    fromOpcode c = some i ↔
      (opcField c.hdr = 0x01 ∧ i = .fmtCustom c.a c.b) ∨
      (opcField c.hdr = 0x02 ∧ i = .fmtPreset (presetField c.hdr)) ∨
      (opcField c.hdr = 0x03 ∧ i = .fmtQuery) ∨
      (opcField c.hdr = 0x10 ∧ i = .classify (signField c.hdr) c.a c.b) ∨
      (opcField c.hdr = 0x11 ∧ i = .split c.a) ∨
      (opcField c.hdr = 0x12 ∧ i = .pack (signField c.hdr) c.a c.b) ∨
      (opcField c.hdr = 0x20 ∧ i = .decode c.a) ∨
      (opcField c.hdr = 0x30 ∧ i = .encodeRat (signField c.hdr) c.a c.b) ∨
      (opcField c.hdr = 0x31 ∧ i = .encodeDec (signField c.hdr) c.a c.b) ∨
      (opcField c.hdr = 0x32 ∧ i = .encodeNf (signField c.hdr) (kindField c.hdr)) := by
  unfold fromOpcode
  split <;> rename_i ho <;> first | (simp [ho]; exact eq_comm) | simp_all

/-- The decoder either names a command or rejects. -/
theorem decodeCommand_total (c : Command) :
    (∃ i, decodeCommand c = .command i) ∨ ∃ r, decodeCommand c = .rejected r := by
  cases decodeCommand c with
  | command i => exact .inl ⟨i, rfl⟩
  | rejected r => exact .inr ⟨r, rfl⟩

/-! ## The fields of an encoded header -/

theorem headerWord_toNat {opc p : Nat} (s : Bool) (k : NonFinite) (ho : opc < 256) (hp : p < 8) :
    (headerWord opc s k p).toNat = p * 1024 + bitOf (k == .nan) * 512 + bitOf s * 256 + opc := by
  cases s <;> cases k <;> simp [headerWord, bitOf] <;> omega

section
variable {opc p : Nat} (s : Bool) (k : NonFinite) (ho : opc < 256) (hp : p < 8)
include ho hp

theorem opcField_headerWord : opcField (headerWord opc s k p) = opc := by
  rw [opcField_eq, headerWord_toNat s k ho hp]
  cases s <;> cases k <;> simp [bitOf] <;> omega

theorem signField_headerWord : signField (headerWord opc s k p) = s := by
  rw [signField_eq, headerWord_toNat s k ho hp]
  cases s <;> cases k <;> simp [bitOf] <;> omega

theorem kindField_headerWord : kindField (headerWord opc s k p) = k := by
  rw [kindField_eq, headerWord_toNat s k ho hp]
  cases s <;> cases k <;> simp [bitOf] <;> omega

theorem presetField_headerWord : presetField (headerWord opc s k p) = p := by
  rw [presetField_eq, headerWord_toNat s k ho hp]
  cases s <;> cases k <;> simp [bitOf] <;> omega

theorem reservedField_headerWord : reservedField (headerWord opc s k p) = 0 := by
  rw [reservedField_eq, headerWord_toNat s k ho hp]
  cases s <;> cases k <;> simp [bitOf] <;> omega

end

/-- A header is its fields (30_encoding.md R51). -/
theorem headerWord_fields (h : Header) (hr : reservedField h = 0) :
    headerWord (opcField h) (signField h) (kindField h) (presetField h) = h := by
  apply BitVec.eq_of_toNat_eq
  have hlt : h.toNat < 8192 := by rw [reservedField_eq] at hr; omega
  rw [headerWord_toNat _ _ (by rw [opcField_eq]; omega) (presetField_lt h), opcField_eq, signField_eq, kindField_eq,
    presetField_eq]
  rcases Nat.mod_two_eq_zero_or_one (h.toNat / 256) with h1 | h1 <;>
    rcases Nat.mod_two_eq_zero_or_one (h.toNat / 512) with h2 | h2 <;> simp [bitOf, h1, h2] <;> omega

end Sys2Proof
end

