-- ==== Sys2Proof/Laws/State.lean ====
section
/-! SUPPORT. One lemma per field per update of the state, true by rfl, so that no proof unfolds a record update. -/

namespace Sys2Proof.Machine

variable (s : State)

@[simp] theorem takeEvent_fmt : (takeEvent s).fmt = s.fmt := rfl
@[simp] theorem takeEvent_config : (takeEvent s).config = s.config := rfl
@[simp] theorem takeEvent_pending : (takeEvent s).pending = s.pending.tail := rfl
@[simp] theorem takeEvent_responses : (takeEvent s).responses = s.responses := rfl
@[simp] theorem takeEvent_resets : (takeEvent s).resets = s.resets := rfl

@[simp] theorem writeFmt_fmt (e m : Nat) : (writeFmt e m s).fmt = ⟨true, e, m⟩ := rfl
@[simp] theorem writeFmt_config (e m : Nat) : (writeFmt e m s).config = s.config := rfl
@[simp] theorem writeFmt_pending (e m : Nat) : (writeFmt e m s).pending = s.pending := rfl
@[simp] theorem writeFmt_responses (e m : Nat) : (writeFmt e m s).responses = s.responses := rfl
@[simp] theorem writeFmt_resets (e m : Nat) : (writeFmt e m s).resets = s.resets := rfl

@[simp] theorem takeReset_fmt : (takeReset s).fmt = ⟨false, Config.freeExponentWidth s.resets, Config.freeSignificandWidth s.resets⟩ := rfl
@[simp] theorem takeReset_config : (takeReset s).config = s.config := rfl
@[simp] theorem takeReset_pending : (takeReset s).pending = s.pending := rfl
@[simp] theorem takeReset_responses : (takeReset s).responses = s.responses := rfl
@[simp] theorem takeReset_resets : (takeReset s).resets = s.resets + 1 := rfl

@[simp] theorem issue_fmt (c : Command) : (issue c s).fmt = s.fmt := rfl
@[simp] theorem issue_config (c : Command) : (issue c s).config = s.config := rfl
@[simp] theorem issue_pending (c : Command) : (issue c s).pending = s.pending ++ [.command c] := rfl
@[simp] theorem issue_responses (c : Command) : (issue c s).responses = s.responses := rfl
@[simp] theorem issue_resets (c : Command) : (issue c s).resets = s.resets := rfl

@[simp] theorem assertReset_fmt : (assertReset s).fmt = s.fmt := rfl
@[simp] theorem assertReset_config : (assertReset s).config = s.config := rfl
@[simp] theorem assertReset_pending : (assertReset s).pending = [.reset (inFlight s.pending)] := rfl
@[simp] theorem assertReset_responses : (assertReset s).responses = s.responses := rfl
@[simp] theorem assertReset_resets : (assertReset s).resets = s.resets := rfl

@[simp] theorem placeNext_fmt (c : Command) : (placeNext c s).fmt = s.fmt := rfl
@[simp] theorem placeNext_config (c : Command) : (placeNext c s).config = s.config := rfl
@[simp] theorem placeNext_pending (c : Command) : (placeNext c s).pending = .command c :: s.pending := rfl
@[simp] theorem placeNext_responses (c : Command) : (placeNext c s).responses = s.responses := rfl
@[simp] theorem placeNext_resets (c : Command) : (placeNext c s).resets = s.resets := rfl

/-- Placing a command next and taking the oldest event gives the state back. -/
@[simp] theorem takeEvent_placeNext (c : Command) : takeEvent (placeNext c s) = s := rfl

/-- Taking the oldest event of a state with a known queue. -/
theorem takeEvent_eq (rest : List Event) (ev : Event) (h : s.pending = ev :: rest) :
    takeEvent s = { s with pending := rest } := by
  simp [takeEvent, h]

@[simp] theorem withFetchWord_pending (nbits w : Nat) :
    (s.withFetchWord nbits w).pending = .command ⟨BitVec.ofNat 32 w, 0, 0⟩ :: s.pending := rfl

end Sys2Proof.Machine
end

