-- ==== Sys2Proof/Laws/Ops.lean ====
section
/-! SUPPORT. For each shared operation, what it can do: the response operations, the format guard and the operand
readers; then what a meaning and a step can do, said once. -/

namespace Sys2Proof.Machine

/-! ## Ending a command -/

theorem respond_eq (st : Status) (p : Payload) (s : State) :
    respond st p s = .next { s with responses := s.responses ++ [⟨st, p⟩] } := rfl

theorem answer_eq (p : Payload) (s : State) :
    answer p s = .next { s with responses := s.responses ++ [⟨.ok, p⟩] } := rfl

theorem raise_eq (st : Status) (s : State) :
    raise st s = .next { s with responses := s.responses ++ [⟨st, .empty⟩] } := rfl

/-! ## The format guard (60_exceptions.md R235) -/

theorem withFormat_valid (k : Nat → Nat → State → Result) (s : State) (h : s.fmt.valid = true) :
    withFormat k s = k s.fmt.e s.fmt.m s := by
  simp [withFormat, h]

theorem withFormat_invalid (k : Nat → Nat → State → Result) (s : State) (h : s.fmt.valid = false) :
    withFormat k s = raise .invalidFormat s := by
  simp [withFormat, h]

/-! ## Reading an operand (30_encoding.md R57) -/

theorem inWidth_eq_some {x : Int} {w n : Nat} : inWidth x w = some n ↔ x = n ∧ n < 2 ^ w := by
  unfold inWidth
  split <;> rename_i h <;> simp <;> omega

theorem inWidth_eq_none {x : Int} {w : Nat} : inWidth x w = none ↔ x < 0 ∨ (2 : Int) ^ w ≤ x := by
  have h2 : ((2 ^ w : Nat) : Int) = (2 : Int) ^ w := by push_cast; rfl
  unfold inWidth
  split <;> rename_i h <;> simp <;> omega

/-- A natural below `2^w` is read as itself. -/
@[simp] theorem inWidth_natCast (n w : Nat) : inWidth (n : Int) w = if n < 2 ^ w then some n else none := by
  simp [inWidth]

theorem inWidth_of_range {x : Int} {w : Nat} (h0 : 0 ≤ x) (h1 : x < (2 : Int) ^ w) : inWidth x w = some x.toNat := by
  have h2 : ((2 ^ w : Nat) : Int) = (2 : Int) ^ w := by push_cast; rfl
  rw [inWidth_eq_some]
  omega

theorem asNat_eq_some {x : Int} {n : Nat} : asNat x = some n ↔ x = n := by
  unfold asNat
  split <;> rename_i h <;> simp <;> omega

theorem asNat_eq_none {x : Int} : asNat x = none ↔ x < 0 := by
  unfold asNat
  split <;> rename_i h <;> simp <;> omega

theorem asNat_of_nonneg {x : Int} (h : 0 ≤ x) : asNat x = some x.toNat := by simp [asNat, h]

theorem asNat_of_neg {x : Int} (h : x < 0) : asNat x = none := asNat_eq_none.mpr h

@[simp] theorem wellFormedOr_some (n : Nat) (k : Nat → State → Result) (s : State) :
    wellFormedOr (some n) k s = k n s := rfl

@[simp] theorem wellFormedOr_none (k : Nat → State → Result) (s : State) :
    wellFormedOr none k s = raise .malformedInput s := rfl

/-! ## What a meaning can do -/

/-- The result answers a next state that differs from `s` by one more response: OK with some payload, or an error with an
empty one. -/
def OnlyResponds (s : State) (r : Result) : Prop :=
  ∃ st p, r = .next { s with responses := s.responses ++ [⟨st, p⟩] } ∧ (st ≠ .ok → p = .empty)

theorem onlyResponds_answer (p : Payload) (s : State) : OnlyResponds s (answer p s) := ⟨.ok, p, rfl, by simp⟩

theorem onlyResponds_raise (st : Status) (s : State) : OnlyResponds s (raise st s) := ⟨st, .empty, rfl, fun _ => rfl⟩

theorem onlyResponds_withFormat {k : Nat → Nat → State → Result} {s : State}
    (h : s.fmt.valid = true → OnlyResponds s (k s.fmt.e s.fmt.m s)) : OnlyResponds s (withFormat k s) := by
  cases hv : s.fmt.valid
  · rw [withFormat_invalid _ _ hv]; exact onlyResponds_raise _ _
  · rw [withFormat_valid _ _ hv]; exact h hv

theorem onlyResponds_wellFormedOr {x : Option Nat} {k : Nat → State → Result} {s : State}
    (h : ∀ n, x = some n → OnlyResponds s (k n s)) : OnlyResponds s (wellFormedOr x k s) := by
  cases x with
  | none => exact onlyResponds_raise _ _
  | some n => exact h n rfl

/-- Whether the command is FMT.CUSTOM or FMT.PRESET, the two that may write FMT (10_state.md R22). -/
def writesFormat : Instr → Bool
  | .fmtCustom _ _ | .fmtPreset _ => true
  | .fmtQuery | .classify _ _ _ | .split _ | .pack _ _ _ | .decode _ | .encodeRat _ _ _ | .encodeDec _ _ _
  | .encodeNf _ _ => false

/-- What every meaning but FMT.CUSTOM and FMT.PRESET can do: respond. -/
theorem exec_onlyResponds {i : Instr} (s : State) (h : writesFormat i = false) : OnlyResponds s (exec i s) := by
  cases i with
  | fmtCustom e m => simp [writesFormat] at h
  | fmtPreset p => simp [writesFormat] at h
  | fmtQuery =>
    simp only [exec, execFmtQuery]
    exact onlyResponds_withFormat fun _ => onlyResponds_answer _ _
  | classify sign ef sf =>
    simp only [exec, execClassify]
    exact onlyResponds_withFormat fun _ => onlyResponds_wellFormedOr fun _ _ => onlyResponds_wellFormedOr fun _ _ =>
      onlyResponds_answer _ _
  | split bits =>
    simp only [exec, execSplit]
    exact onlyResponds_withFormat fun _ => onlyResponds_wellFormedOr fun _ _ => onlyResponds_answer _ _
  | pack sign ef sf =>
    simp only [exec, execPack]
    exact onlyResponds_withFormat fun _ => onlyResponds_wellFormedOr fun _ _ => onlyResponds_wellFormedOr fun _ _ =>
      onlyResponds_answer _ _
  | decode bits =>
    simp only [exec, execDecode]
    exact onlyResponds_withFormat fun _ => onlyResponds_wellFormedOr fun _ _ => onlyResponds_answer _ _
  | encodeRat sign num den =>
    simp only [exec, execEncodeRat]
    refine onlyResponds_withFormat fun _ => onlyResponds_wellFormedOr fun _ _ => onlyResponds_wellFormedOr fun d _ => ?_
    by_cases hd : d = 0
    · simpa [hd] using onlyResponds_raise _ _
    · simpa [hd] using onlyResponds_answer _ _
  | encodeDec sign digits exp10 =>
    simp only [exec, execEncodeDec]
    exact onlyResponds_withFormat fun _ => onlyResponds_wellFormedOr fun _ _ => onlyResponds_answer _ _
  | encodeNf sign k =>
    simp only [exec, execEncodeNf]
    refine onlyResponds_withFormat fun _ => ?_
    by_cases hn : s.config.nonfiniteEnable = false
    · simpa [hn] using onlyResponds_raise _ _
    · by_cases hm : s.fmt.m = 0
      · cases k
        · simpa [hn] using onlyResponds_answer _ _
        · simpa [hn, hm] using onlyResponds_raise _ _
      · cases k
        · simpa [hn] using onlyResponds_answer _ _
        · simpa [hn, hm] using onlyResponds_answer _ _

theorem validFormat_iff {limit : Nat} {e m : Int} :
    validFormat limit e m = true ↔ 1 ≤ e ∧ 0 ≤ m ∧ 1 + e + m ≤ limit := by
  simp [validFormat, and_assoc]

/-- What FMT.CUSTOM and FMT.PRESET can do: write a whole format that is good under the parameters' constraints and answer
OK, or respond InvalidFormat and write nothing (40_format.md R81 to R84). -/
theorem exec_format_cases {i : Instr} (s : State) (h : writesFormat i = true) :
    (∃ e m, exec i s =
        .next { s with fmt := ⟨true, e, m⟩, responses := s.responses ++ [⟨.ok, .empty⟩] } ∧
        (64 ≤ s.config.maxTotalBits → 1 ≤ e ∧ 1 + e + m ≤ s.config.maxTotalBits)) ∨
    exec i s = .next { s with responses := s.responses ++ [⟨.invalidFormat, .empty⟩] } := by
  cases i with
  | fmtCustom e m =>
    cases hv : validFormat s.config.maxTotalBits e m with
    | false => right; simp [exec, execFmtCustom, hv, raise_eq]
    | true =>
      left
      refine ⟨e.toNat, m.toNat, by simp [exec, execFmtCustom, hv, answer_eq, writeFmt], fun _ => ?_⟩
      have := validFormat_iff.mp hv
      omega
  | fmtPreset p =>
    match p with
    | 0 => exact .inl ⟨5, 10, rfl, by omega⟩
    | 1 => exact .inl ⟨8, 7, rfl, by omega⟩
    | 2 => exact .inl ⟨8, 10, rfl, by omega⟩
    | 3 => exact .inl ⟨8, 23, rfl, by omega⟩
    | 4 => exact .inl ⟨11, 52, rfl, by omega⟩
    | _ + 5 => exact .inr rfl
  | fmtQuery => simp [writesFormat] at h
  | classify _ _ _ => simp [writesFormat] at h
  | split _ => simp [writesFormat] at h
  | pack _ _ _ => simp [writesFormat] at h
  | decode _ => simp [writesFormat] at h
  | encodeRat _ _ _ => simp [writesFormat] at h
  | encodeDec _ _ _ => simp [writesFormat] at h
  | encodeNf _ _ => simp [writesFormat] at h

/-- FMT.CUSTOM in its two cases, with the widths it writes (40_format.md R81). -/
theorem exec_fmtCustom_cases (e m : Int) (s : State) :
    (1 ≤ e ∧ 0 ≤ m ∧ exec (.fmtCustom e m) s =
      .next { s with fmt := ⟨true, e.toNat, m.toNat⟩, responses := s.responses ++ [⟨.ok, .empty⟩] }) ∨
    exec (.fmtCustom e m) s = .next { s with responses := s.responses ++ [⟨.invalidFormat, .empty⟩] } := by
  cases hv : validFormat s.config.maxTotalBits e m with
  | false => right; simp [exec, execFmtCustom, hv, raise_eq]
  | true =>
    obtain ⟨h1, h2, -⟩ := validFormat_iff.mp hv
    exact .inl ⟨h1, h2, by simp [exec, execFmtCustom, hv, answer_eq, writeFmt]⟩

/-- FMT.PRESET in its two cases, with the widths it writes (40_format.md R83, R84). -/
theorem exec_fmtPreset_cases (p : Nat) (s : State) :
    (∃ e m, presetWidths p = some (e, m) ∧ exec (.fmtPreset p) s =
      .next { s with fmt := ⟨true, e, m⟩, responses := s.responses ++ [⟨.ok, .empty⟩] }) ∨
    (presetWidths p = none ∧
      exec (.fmtPreset p) s = .next { s with responses := s.responses ++ [⟨.invalidFormat, .empty⟩] }) := by
  cases hv : presetWidths p with
  | none => exact .inr ⟨rfl, by simp [exec, execFmtPreset, hv, raise_eq]⟩
  | some w => exact .inl ⟨w.1, w.2, rfl, by simp [exec, execFmtPreset, hv, answer_eq, writeFmt]⟩

/-- The presets that have widths are the five of 40_format.md R83. -/
theorem presetWidths_eq_some {p e m : Nat} (h : presetWidths p = some (e, m)) :
    (p, e, m) ∈ ([(0, 5, 10), (1, 8, 7), (2, 8, 10), (3, 8, 23), (4, 11, 52)] : List (Nat × Nat × Nat)) := by
  unfold presetWidths at h
  split at h <;> simp_all

/-- FMT.QUERY in its two cases (40_format.md R86). -/
theorem exec_fmtQuery_cases (s : State) :
    (s.fmt.valid = true ∧ exec .fmtQuery s = .next { s with responses := s.responses ++ [⟨.ok, .constants s.fmt.e s.fmt.m
      (totalBits s.fmt.e s.fmt.m) (bias s.fmt.e) (maxExponentField s.fmt.e) minNormalExponentField⟩] }) ∨
    (s.fmt.valid = false ∧
      exec .fmtQuery s = .next { s with responses := s.responses ++ [⟨.invalidFormat, .empty⟩] }) := by
  cases hv : s.fmt.valid with
  | false => exact .inr ⟨rfl, by simp [exec, execFmtQuery, withFormat, hv, raise_eq]⟩
  | true => exact .inl ⟨rfl, by simp [exec, execFmtQuery, withFormat, hv, answer_eq]⟩

/-! ## What a step can do -/

theorem step_nil {s : State} (h : s.pending = []) : step s = .next s := by simp [step, h]

theorem step_command {s : State} {c : Command} {rest : List Event} {i : Instr} (h : s.pending = .command c :: rest)
    (hd : decodeCommand c = .command i) : step s = exec i { s with pending := rest } := by
  simp [step, h, hd, takeEvent]

theorem step_rejected {s : State} {c : Command} {rest : List Event} {r : Reject} (h : s.pending = .command c :: rest)
    (hd : decodeCommand c = .rejected r) :
    step s = .next { s with pending := rest, responses := s.responses ++ [⟨.illegalCommand, .empty⟩] } := by
  simp [step, h, hd, takeEvent, raise_eq]

theorem step_reset {s : State} {c : Option Command} {rest : List Event} (h : s.pending = .reset c :: rest) :
    step s = .next (takeReset { s with pending := rest }) := by
  simp [step, h, takeEvent]

end Sys2Proof.Machine
end

