-- ==== Sys2Proof/Laws/HostText.lean ====
section
/-! SUPPORT. The text functions of the host adaptor: what reading digits gives, letter case, decimal digits, and the host's
copy of the total width under each command. -/

namespace Sys2Proof.Machine

/-! ## Reading digits -/

/-- Reading succeeds exactly when every character is a digit, and then gives their values in order. -/
theorem readDigits_eq_some {digit : Char → Option Nat} {t : Text} {ds : List Nat} :
    readDigits digit t = some ds ↔ t.map digit = ds.map some := by
  induction t generalizing ds with
  | nil => cases ds <;> simp [readDigits]
  | cons c rest ih =>
    unfold readDigits
    cases ds with
    | nil => cases digit c <;> cases readDigits digit rest <;> simp
    | cons d ds =>
      have h := ih (ds := ds)
      cases hc : digit c <;> cases hr : readDigits digit rest <;> simp_all

/-- Characters of equal value read alike. -/
theorem readDigits_map {digit : Char → Option Nat} {f : Char → Char} (h : ∀ c, digit (f c) = digit c) (t : Text) :
    readDigits digit (t.map f) = readDigits digit t := by
  induction t with
  | nil => rfl
  | cons c rest ih => simp [readDigits, h, ih]

/-- The number a digit list spells, by the library's little-endian form. -/
theorem digitsValue_eq_ofDigits (base : Nat) (ds : List Nat) : digitsValue base ds = Nat.ofDigits base ds.reverse := by
  induction ds using List.reverseRecOn with
  | nil => rfl
  | append_singleton l d ih => simp_all [digitsValue, Nat.ofDigits_cons]; ring

/-- A leading zero digit changes nothing. -/
@[simp] theorem digitsValue_zero_cons (base : Nat) (ds : List Nat) : digitsValue base (0 :: ds) = digitsValue base ds := by
  simp [digitsValue]

/-! ## The host's copy of the total width (70_reset_and_hazards.md R263) -/

@[simp] theorem trackWidth_fmtCustom_ok (copy : Option Nat) (e m : Int) (p : Payload) :
    trackWidth copy (.fmtCustom e m) ⟨.ok, p⟩ = some (totalBits e.toNat m.toNat) := rfl

@[simp] theorem trackWidth_fmtPreset_ok (copy : Option Nat) (id : Nat) (p : Payload) :
    trackWidth copy (.fmtPreset id) ⟨.ok, p⟩ = (presetWidths id).map fun w => totalBits w.1 w.2 := rfl

@[simp] theorem trackWidth_fmtQuery_ok (copy : Option Nat) (e m t bias maxef minnef : Nat) :
    trackWidth copy .fmtQuery ⟨.ok, .constants e m t bias maxef minnef⟩ = some t := rfl

/-- A response that is not OK leaves the copy as it was. -/
theorem trackWidth_of_not_ok (copy : Option Nat) (i : Instr) {r : Response} (h : r.status ≠ .ok) :
    trackWidth copy i r = copy := by
  obtain ⟨st, p⟩ := r
  cases st <;> first | exact absurd rfl h | cases i <;> rfl

/-- A command that neither sets nor reads the format leaves the copy as it was. -/
theorem trackWidth_of_other (copy : Option Nat) {i : Instr} (r : Response) (h1 : writesFormat i = false)
    (h2 : i ≠ .fmtQuery) : trackWidth copy i r = copy := by
  cases i <;> first | rfl | exact absurd rfl h2 | exact absurd h1 (by simp [writesFormat])

end Sys2Proof.Machine
end

