-- ==== Sys2Proof/Laws/Numbers.lean ====
section
/-! SUPPORT. The fraction operations of the encoder and the decoder in terms of exact rationals, and the arithmetic of
packing and splitting a layout. -/

namespace Sys2Proof

open Machine Reference

/-! ## Powers of two with an integer exponent -/

theorem pow2_pos (k : ℤ) : 0 < pow2 k := zpow_pos (by norm_num) k

theorem pow2_ne_zero (k : ℤ) : pow2 k ≠ 0 := (pow2_pos k).ne'

theorem pow2_add (j k : ℤ) : pow2 (j + k) = pow2 j * pow2 k := zpow_add₀ (by norm_num) j k

theorem pow2_sub (j k : ℤ) : pow2 (j - k) = pow2 j / pow2 k := zpow_sub₀ (by norm_num) j k

theorem pow2_neg (k : ℤ) : pow2 (-k) = (pow2 k)⁻¹ := zpow_neg _ k

@[simp] theorem pow2_zero : pow2 0 = 1 := by simp [pow2]

@[simp] theorem pow2_one : pow2 1 = 2 := by simp [pow2]

@[simp] theorem pow2_natCast (n : ℕ) : pow2 (n : ℤ) = 2 ^ n := zpow_natCast _ n

theorem pow2_succ (k : ℤ) : pow2 (k + 1) = 2 * pow2 k := by rw [pow2_add, pow2_one, mul_comm]

theorem pow2_lt_pow2 {j k : ℤ} : pow2 j < pow2 k ↔ j < k := zpow_lt_zpow_iff_right₀ (by norm_num)

theorem pow2_le_pow2 {j k : ℤ} : pow2 j ≤ pow2 k ↔ j ≤ k := zpow_le_zpow_iff_right₀ (by norm_num)

theorem pow2_of_nonneg {k : ℤ} (h : 0 ≤ k) : pow2 k = 2 ^ k.toNat := by
  conv_lhs => rw [← Int.toNat_of_nonneg h]
  exact pow2_natCast _

theorem pow2_of_neg {k : ℤ} (h : k < 0) : pow2 k = (2 ^ (-k).toNat)⁻¹ := by
  rw [← pow2_of_nonneg (by omega : 0 ≤ -k), pow2_neg, inv_inv]

/-- The bias as an integer is the model's. -/
theorem bias_cast (e : ℕ) : ((Machine.bias e : ℕ) : ℤ) = Reference.bias e := by
  have : 1 ≤ 2 ^ (e - 1) := Nat.one_le_two_pow
  simp only [Machine.bias, Reference.bias]
  push_cast [this]
  rfl

/-- The largest exponent field as an integer is the model's. -/
theorem maxExponentField_cast (e : ℕ) : ((maxExponentField e : ℕ) : ℤ) = maxef e := by
  have : 1 ≤ 2 ^ e := Nat.one_le_two_pow
  simp only [maxExponentField, maxef]
  push_cast [this]
  rfl

/-! ## Fractions of naturals as rationals -/

theorem magnitude_nonneg (q : Frac) : 0 ≤ magnitude q := by unfold magnitude; positivity

theorem magnitude_pos {q : Frac} (hn : 1 ≤ q.num) (hd : 1 ≤ q.den) : 0 < magnitude q := by
  unfold magnitude
  have h1 : (0 : ℚ) < q.num := by exact_mod_cast hn
  have h2 : (0 : ℚ) < q.den := by exact_mod_cast hd
  positivity

theorem magnitude_eq_zero {q : Frac} (hd : 1 ≤ q.den) : magnitude q = 0 ↔ q.num = 0 := by
  unfold magnitude
  have h2 : (q.den : ℚ) ≠ 0 := by exact_mod_cast (by omega : q.den ≠ 0)
  simp [h2]

/-- Scaling a fraction down by a power of two divides its magnitude. -/
theorem magnitude_scaleDown (q : Frac) (k : ℤ) : magnitude (q.scaleDown k) = magnitude q / pow2 k := by
  unfold Frac.scaleDown magnitude
  split <;> rename_i h
  · rw [pow2_of_nonneg h]; push_cast; rw [div_div]
  · rw [pow2_of_neg (by omega)]; push_cast; rw [div_inv_eq_mul]; ring

theorem scaleDown_den_pos {q : Frac} (hd : 1 ≤ q.den) (k : ℤ) : 1 ≤ (q.scaleDown k).den := by
  unfold Frac.scaleDown
  split
  · exact Nat.one_le_iff_ne_zero.mpr (by positivity)
  · exact hd

/-- The comparison of 44_encoder.md R151 compares the magnitude with a power of two. -/
theorem atLeastPow2_iff {q : Frac} (hd : 1 ≤ q.den) (k : ℤ) : q.atLeastPow2 k = true ↔ pow2 k ≤ magnitude q := by
  have h2 : (0 : ℚ) < q.den := by exact_mod_cast hd
  unfold Frac.atLeastPow2 magnitude
  split <;> rename_i h
  · rw [pow2_of_nonneg h, le_div_iff₀ h2, decide_eq_true_iff, mul_comm]
    exact_mod_cast Iff.rfl
  · rw [pow2_of_neg (by omega), le_div_iff₀ h2, decide_eq_true_iff, inv_mul_le_iff₀ (by positivity), mul_comm]
    exact_mod_cast Iff.rfl

/-- The quotient of the parts is the floor of the magnitude. -/
theorem div_eq_floor_magnitude (q : Frac) : ((q.num / q.den : ℕ) : ℤ) = ⌊magnitude q⌋ := by
  unfold magnitude
  rw [Rat.floor_natCast_div_natCast]
  simp

/-- The remainder over the denominator is what is left of the magnitude above its floor. -/
theorem mod_eq_fract_magnitude {q : Frac} (hd : 1 ≤ q.den) :
    ((q.num % q.den : ℕ) : ℚ) = (magnitude q - ⌊magnitude q⌋) * q.den := by
  have h2 : (q.den : ℚ) ≠ 0 := by exact_mod_cast (by omega : q.den ≠ 0)
  have h := Nat.div_add_mod q.num q.den
  have h' : (q.den : ℚ) * ((q.num / q.den : ℕ) : ℚ) + ((q.num % q.den : ℕ) : ℚ) = q.num := by exact_mod_cast h
  rw [← div_eq_floor_magnitude]
  simp only [magnitude, sub_mul, div_mul_cancel₀ _ h2, Int.cast_natCast]
  linarith

/-! ## Trailing zeros (43_decoder.md R132) -/

/-- `twosDividing` finds how often 2 divides a positive number: the quotient is odd. -/
theorem twosDividing_spec (fuel g : ℕ) (hg : g ≠ 0) (hf : g < 2 ^ fuel) :
    2 ^ twosDividing fuel g ∣ g ∧ g / 2 ^ twosDividing fuel g % 2 = 1 := by
  induction fuel generalizing g with
  | zero => simp at hf; omega
  | succ fuel ih =>
    unfold twosDividing
    split <;> rename_i h
    · have hpow : 2 ^ (fuel + 1) = 2 ^ fuel * 2 := pow_succ _ _
      obtain ⟨h1, h2⟩ := ih (g / 2) (by omega) (by omega)
      rw [pow_succ', ← Nat.div_div_eq_div_mul]
      exact ⟨(Nat.mul_dvd_mul_left 2 h1).trans (by rw [Nat.mul_div_cancel' (by omega)]), h2⟩
    · simp; omega

theorem lt_two_pow_log2_succ (g : ℕ) : g < 2 ^ (g.log2 + 1) := Nat.lt_log2_self

/-! ## Packing and splitting -/

theorem packFields_eq (e m sign f : ℕ) :
    packFields e m sign (f / 2 ^ m) (f % 2 ^ m) = sign * 2 ^ (e + m) + f := by
  rw [packFields, Nat.add_assoc, Nat.div_add_mod']

theorem two_pow_split (e m : ℕ) : 2 ^ (1 + e + m) = 2 * (2 ^ e * 2 ^ m) := by
  rw [pow_add, pow_add]; ring

theorem two_pow_add (e m : ℕ) : 2 ^ (e + m) = 2 ^ e * 2 ^ m := pow_add _ _ _

/-- Fields in range pack below the sign bit. -/
theorem fields_lt {e m ef sf : ℕ} (h1 : ef < 2 ^ e) (h2 : sf < 2 ^ m) : ef * 2 ^ m + sf < 2 ^ (e + m) := by
  rw [two_pow_add]
  calc ef * 2 ^ m + sf < ef * 2 ^ m + 2 ^ m := by omega
    _ = (ef + 1) * 2 ^ m := by ring
    _ ≤ 2 ^ e * 2 ^ m := Nat.mul_le_mul_right _ h1

/-- A layout packed from naturals, as the integer formula. -/
theorem packFields_cast (e m s ef sf : ℕ) : ((packFields e m s ef sf : ℕ) : ℤ) = Reference.pack e m s ef sf := by
  unfold packFields Reference.pack
  push_cast
  rfl

/-! ## The decoder's integers -/

theorem signed_cast {s : ℕ} (g : ℕ) (hs : s < 2) : ((signed s g : ℤ) : ℚ) = (-1) ^ s * g := by
  unfold signed
  interval_cases s <;> simp

@[simp] theorem signed_natAbs (s g : ℕ) : (signed s g).natAbs = g := by
  unfold signed
  split <;> simp

theorem scaleExponent_eq (e m ef : ℕ) : scaleExponent e m ef = Reference.scaleExp e m ef := by
  unfold scaleExponent Reference.scaleExp
  rw [bias_cast]
  push_cast
  rfl

/-! ## Bit lengths and binary exponents (44_encoder.md R151) -/

/-- A positive number lies between the powers of two of its bit length. -/
theorem bitLength_bounds {n : ℕ} (hn : 1 ≤ n) : (2 : ℚ) ^ bitLength n / 2 ≤ n ∧ (n : ℚ) < 2 ^ bitLength n := by
  have h0 : n ≠ 0 := by omega
  simp only [bitLength, h0, if_false]
  refine ⟨?_, by exact_mod_cast lt_two_pow_log2_succ n⟩
  rw [pow_succ, mul_div_cancel_right₀ _ (by norm_num)]
  exact_mod_cast Nat.log2_self_le h0

theorem bitLength_eq_size (n : ℕ) : bitLength n = Nat.size n := by
  unfold bitLength
  split <;> rename_i h
  · subst h
    simp
  · exact le_antisymm (Nat.lt_size.mpr (Nat.log2_self_le h)) (Nat.size_le.mpr (lt_two_pow_log2_succ n))

/-- A number lies between consecutive powers of two for one exponent only. -/
theorem pow2_bracket_unique {q : ℚ} {j k : ℤ} (h1 : pow2 j ≤ q) (h2 : q < pow2 (j + 1)) (h3 : pow2 k ≤ q)
    (h4 : q < pow2 (k + 1)) : j = k := by
  have a := pow2_lt_pow2.mp (lt_of_le_of_lt h1 h4)
  have b := pow2_lt_pow2.mp (lt_of_le_of_lt h3 h2)
  omega

/-! ## Rounding to nearest, ties to even (44_encoder.md R152) -/

@[simp] theorem rne_intCast (n : ℤ) : rne (n : ℚ) = n := by simp [rne]

/-- The rounding is at most one half away, and even at exactly one half. -/
theorem rne_bounds (r : ℚ) : |r - rne r| ≤ 1 / 2 ∧ (|r - rne r| = 1 / 2 → rne r % 2 = 0) := by
  have h1 := Int.floor_le r
  have h2 := Int.lt_floor_add_one r
  unfold rne
  split_ifs <;> constructor <;> (try push_cast) <;> (try rw [abs_le]) <;> (try constructor) <;> (try linarith) <;>
    (try omega)
  · intro h
    rw [abs_of_nonneg (by linarith)] at h
    linarith
  · intro h
    rw [abs_of_nonpos (by linarith)] at h
    linarith

theorem rne_mono {a b : ℚ} (h : a ≤ b) : rne a ≤ rne b := by
  by_contra hc
  push Not at hc
  have ha := rne_bounds a
  have hb := rne_bounds b
  have e : (rne b : ℚ) + 1 ≤ rne a := by exact_mod_cast hc
  have ha1 := abs_le.mp ha.1
  have hb1 := abs_le.mp hb.1
  have p1 := ha.2 (by rw [show a - rne a = -(1 / 2) by linarith]; norm_num)
  have p2 := hb.2 (by rw [show b - rne b = 1 / 2 by linarith]; norm_num)
  have h3 : (rne a : ℚ) = rne b + 1 := by linarith
  have h4 : rne a = rne b + 1 := by exact_mod_cast h3
  omega

theorem rne_nonneg {a : ℚ} (h : 0 ≤ a) : 0 ≤ rne a := by
  rw [← rne_intCast 0]
  exact rne_mono (by simpa using h)

end Sys2Proof
end

