-- ==== Sys2Proof/Laws/PerInstr.lean ====
section
/-! SUPPORT. Per-instruction facts about the encoding, one lemma per constructor of Instr. Family EncodedHeader: the header
of a well-formed command carries the command's opcode, no reserved bit and no field the command does not use. -/

namespace Sys2Proof.Laws.EncodedHeader

/-- The opcode of a command (30_encoding.md R55). -/
def opcode : Instr → Nat
  | .fmtCustom _ _ => 0x01
  | .fmtPreset _ => 0x02
  | .fmtQuery => 0x03
  | .classify _ _ _ => 0x10
  | .split _ => 0x11
  | .pack _ _ _ => 0x12
  | .decode _ => 0x20
  | .encodeRat _ _ _ => 0x30
  | .encodeDec _ _ _ => 0x31
  | .encodeNf _ _ => 0x32

/-- The header of the encoded command passes the checks of 30_encoding.md R54 under the command's own opcode. -/
def Statement (i : Instr) : Prop :=
  i.wf = true → opcField (encode i).hdr = opcode i ∧ reservedField (encode i).hdr = 0 ∧
    unusedFieldSet i (encode i).hdr = false

/-- A header assembled from fields of which the command uses all that are set. -/
theorem of_headerWord (i : Instr) (opc p : Nat) (s : Bool) (k : NonFinite) (ho : opc < 256) (hp : p < 8)
    (he : (encode i).hdr = headerWord opc s k p) (hc : opc = opcode i)
    (hu : (usesSign i || !s) && (usesKind i || k == .infinity) && (usesPreset i || p == 0)) :
    opcField (encode i).hdr = opcode i ∧ reservedField (encode i).hdr = 0 ∧ unusedFieldSet i (encode i).hdr = false := by
  rw [he]
  refine ⟨by rw [opcField_headerWord s k ho hp, hc], reservedField_headerWord s k ho hp, ?_⟩
  rw [unusedFieldSet, signField_headerWord s k ho hp, kindField_headerWord s k ho hp, presetField_headerWord s k ho hp]
  revert hu
  cases usesSign i <;> cases usesKind i <;> cases usesPreset i <;> cases s <;> cases k <;> simp

theorem fmtCustom (e m : Int) : Statement (.fmtCustom e m) :=
  fun _ => of_headerWord _ 0x01 0 false .infinity (by omega) (by omega) rfl rfl rfl

theorem fmtPreset (p : Nat) : Statement (.fmtPreset p) := fun h =>
  of_headerWord _ 0x02 p false .infinity (by omega) (by simpa [Instr.wf] using h) rfl rfl (by simp [usesSign, usesKind, usesPreset])

theorem fmtQuery : Statement .fmtQuery :=
  fun _ => of_headerWord _ 0x03 0 false .infinity (by omega) (by omega) rfl rfl rfl

theorem classify (s : Bool) (ef sf : Int) : Statement (.classify s ef sf) :=
  fun _ => of_headerWord _ 0x10 0 s .infinity (by omega) (by omega) rfl rfl (by simp [usesSign, usesKind, usesPreset])

theorem split (bits : Int) : Statement (.split bits) :=
  fun _ => of_headerWord _ 0x11 0 false .infinity (by omega) (by omega) rfl rfl rfl

theorem pack (s : Bool) (ef sf : Int) : Statement (.pack s ef sf) :=
  fun _ => of_headerWord _ 0x12 0 s .infinity (by omega) (by omega) rfl rfl (by simp [usesSign, usesKind, usesPreset])

theorem decode (bits : Int) : Statement (.decode bits) :=
  fun _ => of_headerWord _ 0x20 0 false .infinity (by omega) (by omega) rfl rfl rfl

theorem encodeRat (s : Bool) (num den : Int) : Statement (.encodeRat s num den) :=
  fun _ => of_headerWord _ 0x30 0 s .infinity (by omega) (by omega) rfl rfl (by simp [usesSign, usesKind, usesPreset])

theorem encodeDec (s : Bool) (digits exp10 : Int) : Statement (.encodeDec s digits exp10) :=
  fun _ => of_headerWord _ 0x31 0 s .infinity (by omega) (by omega) rfl rfl (by simp [usesSign, usesKind, usesPreset])

theorem encodeNf (s : Bool) (k : NonFinite) : Statement (.encodeNf s k) :=
  fun _ => of_headerWord _ 0x32 0 s k (by omega) (by omega) rfl rfl (by simp [usesSign, usesKind, usesPreset])

end Sys2Proof.Laws.EncodedHeader
end

