-- ==== Sys2Proof/Machine/Flags.lean ====
section
/-! DEFINITION. The block has no flags, no condition codes and no sticky status (10_state.md R29, 60_exceptions.md R239,
R240). What carries a command's outcome instead is the status of its response, whose number stands here. -/

namespace Sys2Proof.Machine

/-- The number of a status (60_exceptions.md R230). -/
def Status.code : Status → Nat
  | .ok => 0
  | .invalidFormat => 1
  | .malformedInput => 2
  | .unrepresentableInput => 3
  | .illegalCommand => 4

end Sys2Proof.Machine
end

