-- ==== Sys2Proof/Tests/Slice0.lean ====
section
/-! SUPPORT. Tests on fixed values, each expected result taken from the spec (95_test_vectors.md unless a comment names
another place), and for every statement with hypotheses a witness that meets them. -/

namespace Sys2Proof.Tests

open Sys2Proof Sys2Proof.Machine

/-! ## Small states -/

/-- After reset, with the format (E, M) set. -/
def withWidths (e m : Nat) : State := { State.reset with fmt := ⟨true, e, m⟩ }

def fp16 : State := withWidths 5 10
def fp32 : State := withWidths 8 23
def fp64 : State := withWidths 11 52
def tiny : State := withWidths 1 0

/-- Non-finite support enabled. -/
def nonfinite (s : State) : State := { s with config := { s.config with nonfiniteEnable := true } }

/-- NEGZERO_IN false. -/
def positiveZero (s : State) : State := { s with config := { s.config with negzeroIn := false } }

/-- The state with one command issued. -/
def issued (h : Header) (a b : Int) (s : State) : State := { s with pending := [.command ⟨h, a, b⟩] }

/-- The response to one command on its own. -/
def responseTo (h : Header) (a b : Int) (s : State) : Option Response :=
  match step (issued h a b s) with
  | .next t => t.responses.head?
  | _ => none

/-- FMT after one command. -/
def fmtAfter (h : Header) (a b : Int) (s : State) : Option Fmt :=
  match step (issued h a b s) with
  | .next t => some t.fmt
  | _ => none

/-! ## Well-formedness: the one check, refused -/

theorem test_wf_preset_refused : (Instr.fmtPreset 8).wf = false := by decide
theorem test_wf_preset_largest : (Instr.fmtPreset 7).wf = true := by decide

/-! ## Decoding: words written out from 30_encoding.md R51, R55 and R56 -/

theorem test_decode_fmtCustom : decodeCommand ⟨0b0000000000000000000_000_0_0_00000001, 5, 10⟩ =
    .command (.fmtCustom 5 10) := by decide
theorem test_decode_fmtPreset : decodeCommand ⟨0b0000000000000000000_100_0_0_00000010, 9, 9⟩ =
    .command (.fmtPreset 4) := by decide
theorem test_decode_fmtQuery : decodeCommand ⟨0b0000000000000000000_000_0_0_00000011, 9, 9⟩ = .command .fmtQuery := by
  decide
theorem test_decode_classify : decodeCommand ⟨0b0000000000000000000_000_0_1_00010000, 31, 0⟩ =
    .command (.classify true 31 0) := by decide
theorem test_decode_split : decodeCommand ⟨0b0000000000000000000_000_0_0_00010001, 0x3C00, 9⟩ =
    .command (.split 0x3C00) := by decide
theorem test_decode_pack : decodeCommand ⟨0b0000000000000000000_000_0_0_00010010, 15, 0⟩ =
    .command (.pack false 15 0) := by decide
theorem test_decode_decode : decodeCommand ⟨0b0000000000000000000_000_0_0_00100000, -1, 9⟩ =
    .command (.decode (-1)) := by decide
theorem test_decode_encodeRat : decodeCommand ⟨0b0000000000000000000_000_0_1_00110000, 3, 2⟩ =
    .command (.encodeRat true 3 2) := by decide
theorem test_decode_encodeDec : decodeCommand ⟨0b0000000000000000000_000_0_0_00110001, 1, -1⟩ =
    .command (.encodeDec false 1 (-1)) := by decide
theorem test_decode_encodeNf : decodeCommand ⟨0b0000000000000000000_000_1_0_00110010, 9, 9⟩ =
    .command (.encodeNf false .nan) := by decide

/-- The illegal headers of L2.8, each with the step of R54 that refuses it. -/
theorem test_decode_rejects :
    decodeCommand ⟨0x00000000, 0, 0⟩ = .rejected .unknownOpcode ∧
    decodeCommand ⟨0x000000FF, 0, 0⟩ = .rejected .unknownOpcode ∧
    decodeCommand ⟨0x00002020, 0, 0⟩ = .rejected .reservedBits ∧
    decodeCommand ⟨0x04000002, 0, 0⟩ = .rejected .reservedBits ∧
    decodeCommand ⟨0x00000111, 0, 0⟩ = .rejected .unusedField ∧
    decodeCommand ⟨0x00000202, 0, 0⟩ = .rejected .unusedField ∧
    decodeCommand ⟨0x00000430, 1, 1⟩ = .rejected .unusedField := by decide

/-- The table word of a row reaches the decoder with slots of 0, and `step` runs it. -/
theorem test_tableWord : decodeTableWord 32 0x1002 = some (.fmtPreset 4) ∧ decodeTableWord 32 0x04000002 = none := by
  decide
theorem test_withFetchWord : step (State.reset.withFetchWord 32 0x1002) = exec (.fmtPreset 4) State.reset := rfl

/-! ## One command each: at most two tests per instruction -/

theorem test_fmtCustom_largest : fmtAfter 0x00000001 1 4094 State.reset = some ⟨true, 1, 4094⟩ := by decide
theorem test_fmtCustom_refused : responseTo 0x00000001 1 4095 fp16 = some ⟨.invalidFormat, .empty⟩ ∧
    fmtAfter 0x00000001 1 4095 fp16 = some ⟨true, 5, 10⟩ := by decide
theorem test_fmtPreset_tf32 : fmtAfter 0x00000802 0 0 State.reset = some ⟨true, 8, 10⟩ := by decide
theorem test_fmtPreset_unknown : responseTo 0x00001402 0 0 State.reset = some ⟨.invalidFormat, .empty⟩ := by decide
theorem test_fmtQuery_fp64 : responseTo 0x00000003 0 0 fp64 = some ⟨.ok, .constants 11 52 64 1023 2047 1⟩ := by decide
theorem test_fmtQuery_unset : responseTo 0x00000003 0 0 State.reset = some ⟨.invalidFormat, .empty⟩ := by decide
theorem test_classify_largest_normal : responseTo 0x00000010 30 1023 fp16 = some ⟨.ok, .cls 2⟩ := by decide
theorem test_classify_one_bit_exponent : responseTo 0x00000010 1 0 tiny = some ⟨.ok, .cls 3⟩ := by decide
theorem test_split_all_ones : responseTo 0x00000011 0xFFFF 0 fp16 = some ⟨.ok, .fields 1 31 1023⟩ := by decide
theorem test_split_refused : responseTo 0x00000011 0x10000 0 fp16 = some ⟨.malformedInput, .empty⟩ := by decide
theorem test_pack_negative_infinity : responseTo 0x00000112 31 0 fp16 = some ⟨.ok, .bits 0xFC00⟩ := by decide
theorem test_pack_refused : responseTo 0x00000012 0 1 tiny = some ⟨.malformedInput, .empty⟩ := by decide
theorem test_decode_subnormal : responseTo 0x00000020 0x03FF 0 fp16 =
    some ⟨.ok, .decoded 1 0 0 1023 (some (1023, 16777216))⟩ := by decide
theorem test_decode_negative : responseTo 0x00000020 0xC000 0 fp16 =
    some ⟨.ok, .decoded 2 1 16 0 (some (-2, 1))⟩ := by decide
/-- 2047 * 2^-25, a tie that carries from the largest subnormal into the smallest normal. -/
theorem test_encodeRat_subnormal_carry : responseTo 0x00000030 2047 (2 ^ 25) fp16 = some ⟨.ok, .bits 0x0400⟩ := by
  decide
theorem test_encodeRat_sign_before_zero : responseTo 0x00000030 (-1) 0 fp16 = some ⟨.malformedInput, .empty⟩ := by
  decide
theorem test_encodeDec_tenth : responseTo 0x00000031 1 (-1) fp64 = some ⟨.ok, .bits 0x3FB999999999999A⟩ := by decide
theorem test_encodeDec_overflow_tie : responseTo 0x00000031 65520 0 fp16 = some ⟨.ok, .bits 0x7C00⟩ := by decide
theorem test_encodeNf_nan : responseTo 0x00000332 0 0 (nonfinite fp16) = some ⟨.ok, .bits 0xFE00⟩ := by decide
theorem test_encodeNf_disabled : responseTo 0x00000032 0 0 fp16 = some ⟨.unrepresentableInput, .empty⟩ := by decide

/-- An underflow keeps the sign, whatever NEGZERO_IN is; an exact zero does not. -/
theorem test_negzero_in : responseTo 0x00000131 1 (-10) (positiveZero fp16) = some ⟨.ok, .bits 0x8000⟩ ∧
    responseTo 0x00000130 0 1 (positiveZero fp16) = some ⟨.ok, .bits 0⟩ := by decide

/-- 60_exceptions.md R236: IllegalCommand before InvalidFormat, InvalidFormat before MalformedInput. -/
theorem test_priority : responseTo 0x00002020 0 0 State.reset = some ⟨.illegalCommand, .empty⟩ ∧
    responseTo 0x00000020 0x10000 0 State.reset = some ⟨.invalidFormat, .empty⟩ := by decide

/-- 60_exceptions.md R230. -/
theorem test_status_codes : [Status.ok, .invalidFormat, .malformedInput, .unrepresentableInput,
    .illegalCommand].map Status.code = [0, 1, 2, 3, 4] := by decide

/-! ## Host adaptor (L2.9) -/

theorem test_fromHex : fromHex "03C00".toList 16 = .value 0x3C00 ∧ fromHex "3c0".toList 16 = .value 0x03C0 ∧
    fromHex "13C00".toList 16 = .error .malformedInput ∧ fromHex "0x3C00".toList 16 = .error .malformedInput ∧
    fromHex [] 16 = .error .malformedInput := by decide
theorem test_binary : fromBitString "0011110000000000".toList 16 = .value 0x3C00 ∧
    fromBitString "011110000000000".toList 16 = .error .malformedInput ∧
    toBitString 0x1FC00 19 = "0011111110000000000".toList := by decide
/-- 45_host_text.md R208: the sign of a numerator, and the one 0 that may lead. -/
theorem test_decimal_form : intText (-3) = "-3".toList ∧ intText 65504 = "65504".toList ∧ intText 0 = "0".toList := by decide
theorem test_trackWidth : trackWidth (some 16) (.fmtPreset 2) ⟨.ok, .empty⟩ = some 19 ∧
    trackWidth (some 16) (.fmtPreset 5) ⟨.invalidFormat, .empty⟩ = some 16 ∧ discardWidth (some 16) = none := by decide
theorem test_toHex : toHex 0x3DCCCCCD 32 = "3DCCCCCD".toList ∧ toHex 1 16 = "0001".toList := by decide
theorem test_parseDecimal : parseDecimal "-1.5e3".toList = .value (.encodeDec true 15 2) ∧
    parseDecimal ".5".toList = .value (.encodeDec false 5 (-1)) ∧
    parseDecimal "-Infinity".toList = .value (.encodeNf true .infinity) ∧
    parseDecimal "1E-400".toList = .value (.encodeDec false 1 (-400)) := by decide
theorem test_parseDecimal_refused : (["", "1e", "e5", ".", "1.5.2", " 1", "1,5", "0x10"].all fun t =>
    decide (parseDecimal t.toList = .error .malformedInput)) = true := by decide
theorem test_rational_and_preset_names : rationalCommand (-3) 2 = .encodeRat true 3 2 ∧
    presetId "FP64".toList = .value 4 ∧ presetId "fp16".toList = .error .invalidFormat := by decide
theorem test_report : report 16 0xBE00 ⟨.ok, decodeLayout 5 10 0xBE00⟩ = some
    [("hex".toList, .string "BE00".toList), ("bits".toList, .string "1011111000000000".toList),
     ("type".toList, .string "NORMAL".toList), ("sign".toList, .integer 1), ("exponent".toList, .integer 15),
     ("significand".toList, .integer 512), ("fraction".toList, .fraction "-3".toList "2".toList)] := by decide
theorem test_report_nan : report 16 0x7E00 ⟨.ok, decodeLayout 5 10 0x7E00⟩ = some
    [("hex".toList, .string "7E00".toList), ("bits".toList, .string "0111111000000000".toList),
     ("type".toList, .string "NAN".toList), ("sign".toList, .integer 0), ("exponent".toList, .integer 31),
     ("significand".toList, .integer 512)] := by decide
theorem test_enumerate : enumerate Config.default 2 (some 10) = [0, 1, 2, 3] ∧
    enumerate Config.default 16 (some 0) = [] ∧ enumerateCount Config.default 16 none = 65536 ∧
    enumerateCount Config.default 32 none = 65536 := by decide

/-- 30_encoding.md R60, R61: both ways of writing a sign, a comment, a case-insensitive mnemonic, and an expansion. -/
theorem test_assembler : assembleLine 16 "CLASSIFY 1, 31, 0 ; inf".toList = .command (.classify true 31 0) ∧
    assembleLine 16 "encode.q -3, 2".toList = .command (.encodeRat true 3 2) ∧
    assembleLine 16 "fmt.name \"fp16\"".toList = .command (.fmtPreset 5) ∧
    assembleLine 16 "decode.hex \"13C00\"".toList = .stopped .malformedInput := by decide

/-! ## Witnesses: every hypothesis of a statement met by a concrete state and operands -/

/-- IllegalHeadersAreExactlyRefused, StatusIsThatOfTheFirstFailingCheck: each cause of an illegal header on its own, at a
boundary of its field, and a legal header beside it. -/
theorem witness_illegalHeader : Reference.illegalHeader 0x04 ∧ Reference.illegalHeader 0xFF ∧
    Reference.illegalHeader (0x20 + 2 ^ 13) ∧ Reference.illegalHeader (0x20 + 2 ^ 31) ∧ Reference.illegalHeader 0x111 ∧
    Reference.illegalHeader 0x202 ∧ Reference.illegalHeader 0x430 ∧ Reference.illegalHeader 0x1003 ∧
    ¬ Reference.illegalHeader 0x332 ∧ ¬ Reference.illegalHeader 0x1C02 ∧
    (issued 0x111 0 0 fp16).pending = .command ⟨0x111, 0, 0⟩ :: [] := by
  simp [Reference.illegalHeader, issued]

/-- AcceptedHeadersMatchOneTableRow. -/
theorem witness_table_row : decodeCommand ⟨0x332, 0, 0⟩ = .command (.encodeNf true .nan) ∧
    (⟨"ENCODE.NF", 0x00000032, 0xFFFFFCFF⟩ : OpcodeRow) ∈ opcodeTable ∧
    (⟨"ENCODE.NF", 0x00000032, 0xFFFFFCFF⟩ : OpcodeRow).accepts 0x332 = true := by decide

/-- DecodingEncodedCommandGivesItBack, EncodingDecodedCommandGivesItsWords. -/
theorem witness_roundtrip : (Instr.fmtPreset 7).wf = true ∧
    decodeCommand ⟨0x1C02, 5, 9⟩ = .command (.fmtPreset 7) := by decide

/-- UnnamedSlotsHaveNoEffect: a header of each list. -/
theorem witness_unnamed_slots : (0x11#32).toNat % 256 ∈ [0x02, 0x03, 0x11, 0x20, 0x32] ∧
    (0x332#32).toNat % 256 ∈ [0x02, 0x03, 0x32] := by decide

/-- StepRunsTheDecodedCommand. -/
theorem witness_step : (issued 0x130 3 2 fp16).pending = .command ⟨0x130, 3, 2⟩ :: [] ∧
    decodeCommand ⟨0x130, 3, 2⟩ = .command (.encodeRat true 3 2) ∧
    decodeTableWord 32 0x332 = some (.encodeNf true .nan) := by decide

/-- CommandsAreAtomic: a command that writes FMT, and one that fails. -/
theorem witness_atomic : (issued 0x00000402 0 0 fp16).pending = .command ⟨0x00000402, 0, 0⟩ :: [] ∧
    fmtAfter 0x00000402 0 0 fp16 ≠ some fp16.fmt ∧
    responseTo 0x00000001 0 5 fp16 = some ⟨.invalidFormat, .empty⟩ := by decide

/-- EveryIssuedCommandIsAnsweredInOrder: a queue with a reset between two commands, split. -/
theorem witness_run : ({ fp16 with pending := [.command ⟨0x20, 1, 0⟩, .reset none, .command ⟨0x20, 1, 0⟩] } : State).pending
    = [.command ⟨0x20, 1, 0⟩] ++ [.reset none, .command ⟨0x20, 1, 0⟩] := by decide

/-- OtherCommandsFrame, RepeatingACommandGivesTheSameResponse. -/
theorem witness_other_frame : (∀ e m, Instr.split 0x3C00 ≠ .fmtCustom e m) ∧ (∀ p, Instr.split 0x3C00 ≠ .fmtPreset p) ∧
    ∃ t, exec (.split 0x3C00) fp16 = .next t := ⟨by simp, by simp, _, rfl⟩

/-- FormatCommandsFrame: one that writes and one that does not. -/
theorem witness_format_frame : (∃ t, exec (.fmtCustom 1 4094) fp16 = .next t) ∧ ∃ t, exec (.fmtPreset 5) fp16 = .next t :=
  ⟨⟨_, rfl⟩, _, rfl⟩

/-- ResponseDependsOnlyOnFormatAndParameters: two states that differ in what was answered and in the reset count. -/
theorem witness_dependence :
    let s := issued 0x20 1 0 fp16
    let s' : State := { s with responses := [⟨.ok, .empty⟩], resets := 3, pending := s.pending ++ [.reset none] }
    s.pending = .command ⟨0x20, 1, 0⟩ :: [] ∧ s'.pending = .command ⟨0x20, 1, 0⟩ :: [.reset none] ∧ s.fmt = s'.fmt ∧
      s.config = s'.config := by decide

/-- StepKeepsFormatInvariant, at the largest format. -/
theorem witness_invariant : Inv (issued 0x00000001 1 4094 (withWidths 4095 0)) ∧
    ∃ t, step (issued 0x00000001 1 4094 (withWidths 4095 0)) = .next t := ⟨by decide, _, rfl⟩

/-- FailedResponsesStayEmpty. -/
theorem witness_failed_empty : (∀ r ∈ (issued 0x00 0 0 fp16).responses, ResponseGood r) ∧
    ∃ t, step (issued 0x00 0 0 fp16) = .next t := ⟨by decide, _, rfl⟩

/-- ResetInvalidatesTheFormat: between commands, and with a command in flight. -/
theorem witness_reset : ({ fp16 with pending := [.reset none] } : State).pending = .reset none :: [] ∧
    ({ fp16 with pending := [.reset (some ⟨0x02, 0, 0⟩), .command ⟨0x03, 0, 0⟩] } : State).pending =
      .reset (some ⟨0x02, 0, 0⟩) :: [.command ⟨0x03, 0, 0⟩] := by decide

/-- FormatUnobservableWhileInvalid, GuardedCommandsNeedAFormat, and the last clause of every result statement: no format
set. -/
theorem witness_no_format : (issued 0x20 1 0 State.reset).pending = .command ⟨0x20, 1, 0⟩ :: [] ∧
    (issued 0x20 1 0 State.reset).fmt.valid = false := by decide

/-- GuardedCommandsNeedAFormat. -/
theorem witness_guarded : (∀ e m, Instr.decode 1 ≠ .fmtCustom e m) ∧ (∀ p, Instr.decode 1 ≠ .fmtPreset p) ∧
    State.reset.fmt.valid = false := ⟨by simp, by simp, rfl⟩

/-- StatusIsThatOfTheFirstFailingCheck: each clause in turn, at the boundary of its check. -/
theorem witness_status_clauses :
    Reference.formatFails Config.default fp16.fmt (.fmtCustom 1 4095) ∧
    Reference.formatFails Config.default State.reset.fmt (.decode 1) ∧
    (¬ Reference.formatFails Config.default fp16.fmt (.decode (2 ^ 16)) ∧ Reference.malformed fp16.fmt (.decode (2 ^ 16))) ∧
    (¬ Reference.formatFails Config.default fp16.fmt (.encodeRat false 1 0) ∧
      ¬ Reference.malformed fp16.fmt (.encodeRat false 1 0) ∧
      Reference.unrepresentable Config.default fp16.fmt (.encodeRat false 1 0)) ∧
    (¬ Reference.formatFails Config.default fp16.fmt (.decode 0xFFFF) ∧ ¬ Reference.malformed fp16.fmt (.decode 0xFFFF) ∧
      ¬ Reference.unrepresentable Config.default fp16.fmt (.decode 0xFFFF)) := by
  refine ⟨?_, ?_, ⟨?_, ?_⟩, ⟨?_, ?_, ?_⟩, ⟨?_, ?_, ?_⟩⟩ <;>
    simp [Reference.formatFails, Reference.malformed, Reference.unrepresentable, Config.default, fp16, withWidths,
      State.reset]

/-- FmtCustomResult: the widest valid format, and each way to be invalid. FmtPresetResult, PresetIsItsCustomPair: the
limit the presets need. -/
theorem witness_format_bounds : ((1 : Int) ≤ 1 ∧ (0 : Int) ≤ 4094 ∧ (1 : Int) + 1 + 4094 ≤ fp16.config.maxTotalBits) ∧
    ¬((1 : Int) ≤ 0 ∧ (0 : Int) ≤ 5 ∧ (1 : Int) + 0 + 5 ≤ fp16.config.maxTotalBits) ∧
    ¬((1 : Int) ≤ 5 ∧ (0 : Int) ≤ -1 ∧ (1 : Int) + 5 + -1 ≤ fp16.config.maxTotalBits) ∧
    ¬((1 : Int) ≤ 1 ∧ (0 : Int) ≤ 4095 ∧ (1 : Int) + 1 + 4095 ≤ fp16.config.maxTotalBits) ∧
    64 ≤ fp16.config.maxTotalBits := by decide

/-- FmtQueryResult and every clause that needs a format. -/
theorem witness_format_set : fp16.fmt.valid = true ∧ 1 ≤ fp16.fmt.e := by decide

/-- SplitResult, DecodeResult: the largest layout and the integers just outside. -/
theorem witness_layout_bounds : ((0 : Int) ≤ 0xFFFF ∧ (0xFFFF : Int) < 2 ^ (1 + fp16.fmt.e + fp16.fmt.m)) ∧
    (2 : Int) ^ (1 + fp16.fmt.e + fp16.fmt.m) ≤ 0x10000 ∧ (-1 : Int) < 0 := by decide

/-- PackResult, ClassifyResult: the largest fields and the integers just outside. -/
theorem witness_field_bounds : ((0 : Int) ≤ 31 ∧ (31 : Int) < 2 ^ fp16.fmt.e ∧ (0 : Int) ≤ 1023 ∧
    (1023 : Int) < 2 ^ fp16.fmt.m) ∧ (2 : Int) ^ fp16.fmt.e ≤ 32 ∧ (2 : Int) ^ fp16.fmt.m ≤ 1024 := by decide

/-- SplitAndPackAreInverse: both directions, the second at the largest fields. -/
theorem witness_split_pack : 0xFFFF < 2 ^ (1 + 5 + 10) ∧ 1 < 2 ∧ 31 < 2 ^ 5 ∧ 1023 < 2 ^ 10 := by decide

/-- ClassesPartitionTheFields, ClassCountsOfAFormat: the smallest format, where exponent field 1 is MAXEF. -/
theorem witness_smallest_format : 1 ≤ 1 ∧ 1 < 2 ^ 1 ∧ 0 < 2 ^ 0 := by decide

/-- DecodeResult: the fields of a finite and of a non-finite layout. ReducedFormIsExactAndInLowestTerms: a sign and a
zero. -/
theorem witness_decode_fields : 0xBE00 / 2 ^ 15 = 1 ∧ 0xBE00 / 2 ^ 10 % 2 ^ 5 < 2 ^ 5 - 1 ∧
    0x7E00 / 2 ^ 10 % 2 ^ 5 = 2 ^ 5 - 1 := by decide

/-- FiniteValuesIncreaseByOneUlp: the step from the largest subnormal to the smallest normal. -/
theorem witness_finite_step : 1 ≤ 5 ∧ 0x03FF < 0x0400 ∧ 0x03FF + 1 < (2 ^ 5 - 1) * 2 ^ 10 := by decide

/-- BinaryExponentIsFloorLog2: a fraction for each clause of the comparison. -/
theorem witness_floorLog2 : (1 ≤ (⟨4, 3⟩ : Frac).num ∧ 1 ≤ (⟨4, 3⟩ : Frac).den) ∧
    Reference.pow2 1 ≤ Reference.magnitude ⟨4, 2⟩ ∧ Reference.magnitude ⟨4, 3⟩ < Reference.pow2 1 := by
  norm_num [Reference.pow2, Reference.magnitude]

/-- RoundingIsNearestTiesToEven: a tie, so that the last clause is met by another integer. -/
theorem witness_rounding_tie : 1 ≤ (⟨5, 2⟩ : Frac).den ∧ (3 : ℤ) ≠ ((⟨5, 2⟩ : Frac).roundNearestEven : ℤ) ∧
    |Reference.magnitude ⟨5, 2⟩ - (((⟨5, 2⟩ : Frac).roundNearestEven : ℕ) : ℚ)| =
      |Reference.magnitude ⟨5, 2⟩ - ((3 : ℤ) : ℚ)| := by
  have h : (⟨5, 2⟩ : Frac).roundNearestEven = 2 := by decide
  rw [h]
  norm_num [Reference.magnitude]

/-- NormalRangeCarriesIntoTheExponent: the largest exponent field, with a significand that does not carry (65504) and one
that carries to MAXEF (65520), under FP16. -/
theorem witness_normal_range : ((30 : ℕ) : Int) = (⟨65520, 1⟩ : Frac).floorLog2 + (bias 5 : Nat) ∧ 30 < maxExponentField 5 ∧
    Reference.rne (Reference.magnitude ⟨65504, 1⟩ / Reference.pow2 (15 - 10)) < 2 ^ 11 ∧
    Reference.rne (Reference.magnitude ⟨65520, 1⟩ / Reference.pow2 (15 - 10)) = 2 ^ 11 ∧ 30 + 1 = maxExponentField 5 := by
  refine ⟨by decide, by decide, ?_, ?_, by decide⟩ <;> norm_num [Reference.magnitude, Reference.pow2, Reference.rne]

/-- SubnormalRangeRoundsOnItsGrid: 1023, 2047/2 and 1/2 of the smallest subnormal under FP16, and the carry of E = 1. -/
theorem witness_subnormal_range : (⟨2047, 2 ^ 25⟩ : Frac).floorLog2 + (bias 5 : Nat) < 1 ∧
    Reference.rne (Reference.magnitude ⟨1023, 2 ^ 24⟩ / Reference.pow2 (1 - 15 - 10)) = 2 ^ 10 - 1 ∧
    Reference.rne (Reference.magnitude ⟨2047, 2 ^ 25⟩ / Reference.pow2 (1 - 15 - 10)) = 2 ^ 10 ∧
    Reference.rne (Reference.magnitude ⟨1, 2 ^ 25⟩ / Reference.pow2 (1 - 15 - 10)) = 0 ∧
    ((⟨3, 2⟩ : Frac).floorLog2 + (bias 1 : Nat) < 1 ∧
      Reference.rne (Reference.magnitude ⟨3, 2⟩ / Reference.pow2 (1 - 0 - 0)) = 2 ^ 0) := by
  refine ⟨by decide, ?_, ?_, ?_, by decide, ?_⟩ <;> norm_num [Reference.magnitude, Reference.pow2, Reference.rne]

/-- ExactZeroSignFollowsTheParameter: both settings. -/
theorem witness_negzero : fp16.config.negzeroIn = true ∧ (positiveZero fp16).config.negzeroIn = false ∧
    (positiveZero fp16).fmt.valid = true := by decide

/-- OverflowIsTestedOnTheRoundedResult: a carry reaches the threshold, and an unrounded exponent does (FP16). -/
theorem witness_overflow : (2 ^ 5 - 1 : ℤ) * 2 ^ 10 ≤ (roundedMagnitude 5 10 ⟨65520, 1⟩ : ℕ) ∧
    (2 ^ 5 - 1 : ℤ) ≤ (⟨65536, 1⟩ : Frac).floorLog2 + Reference.bias 5 := by decide

/-- UnderflowThreshold, OverflowThreshold: magnitudes exactly at each threshold (FP16, then E = 1). -/
theorem witness_thresholds : Reference.magnitude ⟨1, 2 ^ 25⟩ = Reference.pow2 (-15 - 10) ∧
    Reference.magnitude ⟨65520, 1⟩ = (2 ^ 11 - 1) * Reference.pow2 (31 - 1 - 15 - 10) + Reference.pow2 (31 - 2 - 15 - 10) ∧
    Reference.magnitude ⟨15, 8⟩ = (2 ^ 3 - 1 / 2 : ℚ) * Reference.pow2 (1 - 3) ∧ 1 < Reference.magnitude ⟨5, 4⟩ := by
  norm_num [Reference.magnitude, Reference.pow2]

/-- EncoderGivesTheNearestValue: the finite result of a tie and the pattern equally near (FP16, 1 + 2^-11). -/
theorem witness_nearest : encodeFinite Config.default 5 10 0 ⟨2049, 2048⟩ < (2 ^ 5 - 1) * 2 ^ 10 ∧
    0x3C01 < (2 ^ 5 - 1) * 2 ^ 10 ∧ 0x3C01 ≠ encodeFinite Config.default 5 10 0 ⟨2049, 2048⟩ := by decide

/-- TiesWithoutSignificandBits: 3/2 in the normal range and 1/2 in the subnormal range of the format (2, 0). -/
theorem witness_ties_no_significand : 1 ≤ 1 ∧ 1 < 2 ^ 2 - 1 ∧
    Reference.magnitude ⟨3, 2⟩ = 3 / 2 * Reference.pow2 (1 - Reference.bias 2) ∧
    Reference.magnitude ⟨1, 2⟩ = Reference.pow2 (-Reference.bias 2) := by
  norm_num [Reference.magnitude, Reference.pow2, Reference.bias]

/-- EncodeRatResult, EncodeDecResult: each clause's operands at their boundary. -/
theorem witness_encode_operands : ((0 : Int) ≤ 0 ∧ (1 : Int) ≤ 1) ∧ (-1 : Int) < 0 ∧ ((0 : Int) ≤ 0 ∧ (0 : Int) = 0) := by
  decide

/-- EncodeNfResult: enabled with and without significand bits, and disabled. -/
theorem witness_encodeNf : (nonfinite fp16).fmt.valid = true ∧ (nonfinite fp16).config.nonfiniteEnable = true ∧
    1 ≤ (nonfinite fp16).fmt.m ∧ (nonfinite fp16).config.wf ∧ (nonfinite tiny).fmt.m = 0 ∧
    fp16.config.nonfiniteEnable = false := by decide

/-- EncodingADecodedValueGivesTheLayoutBack: -0 and the largest finite layout of FP16. -/
theorem witness_round_trip : (0x8000 < 2 ^ (1 + 5 + 10) ∧ (splitFields 5 10 0x8000).ef < 2 ^ 5 - 1) ∧
    (0xFBFF < 2 ^ (1 + 5 + 10) ∧ (splitFields 5 10 0xFBFF).ef < 2 ^ 5 - 1) := by decide

/-- EncodingIsMonotone: two magnitudes on the two sides of an overflow. -/
theorem witness_monotone : Reference.magnitude ⟨65519, 1⟩ ≤ Reference.magnitude ⟨131040, 2⟩ := by
  norm_num [Reference.magnitude]

/-- EncodeResultsHaveTBits, EncodeResultsCarryTheHeaderSign: an encode that answers OK, of each command. -/
theorem witness_encode_ok : fp16.config.wf ∧
    exec (.encodeRat true 3 2) fp16 = .next { fp16 with responses := fp16.responses ++ [⟨.ok, .bits 0xBE00⟩] } ∧
    exec (.encodeDec false 1 (-1)) fp16 = .next { fp16 with responses := fp16.responses ++ [⟨.ok, .bits 0x2E66⟩] } ∧
    exec (.encodeNf true .infinity) (nonfinite fp16) =
      .next { nonfinite fp16 with responses := (nonfinite fp16).responses ++ [⟨.ok, .bits 0xFC00⟩] } :=
  ⟨by decide, rfl, rfl, rfl⟩

/-- TiesNextToOneGoToEven: both ties of FP16. -/
theorem witness_ties_next_to_one : Reference.magnitude ⟨2049, 2048⟩ = 1 + Reference.pow2 (-(10 + 1)) ∧
    Reference.magnitude ⟨2051, 2048⟩ = 1 + 3 * Reference.pow2 (-(10 + 1)) := by
  norm_num [Reference.magnitude, Reference.pow2]

/-- HexFormsReadBack, HexReadingIgnoresCaseAndLeadingZeros, BinaryFormsAreInverse. -/
theorem witness_text_forms : 0x3C < 2 ^ 6 ∧ fromHex "03c".toList 6 = .value 0x3C ∧
    fromBitString "11".toList 2 = .value 3 := by decide

/-- ParserAcceptsExactlyTheGrammar: a string of the grammar, and one outside it. -/
theorem witness_grammar : Grammar.Decimal "1".toList false 1 0 ∧
    (∀ neg k, ¬ Grammar.Nonfinite [] neg k) ∧ ∀ neg digits exp10, ¬ Grammar.Decimal [] neg digits exp10 := by
  refine ⟨⟨[], ['1'], [], ['1'], [], 0, rfl, .absent, .whole _ ⟨by simp, fun c hc => by rw [List.mem_singleton.mp hc]; decide⟩, .absent, rfl, rfl⟩, ?_, ?_⟩
  · rintro neg k ⟨sg, tok, h, -, hk⟩
    obtain ⟨-, rfl⟩ := List.append_eq_nil_iff.mp h.symm
    revert hk
    simp
  · rintro neg digits exp10 ⟨sg, mant, ex, i, f, x0, h, -, hm, -⟩
    obtain ⟨h', -⟩ := List.append_eq_nil_iff.mp h.symm
    obtain ⟨-, rfl⟩ := List.append_eq_nil_iff.mp h'
    generalize hz : ([] : Text) = z at hm
    cases hm with
    | whole _ hd => exact hd.1 hz.symm
    | point _ _ => simp at hz
    | both _ _ _ _ => simp at hz
    | fraction _ _ => simp at hz

/-- ReportHasFractionExactlyForFiniteValues: a finite and a non-finite layout. -/
theorem witness_report : (0x8000 < 2 ^ (1 + 5 + 10) ∧ (splitFields 5 10 0x8000).ef < 2 ^ 5 - 1) ∧
    (0x7E00 < 2 ^ (1 + 5 + 10) ∧ ¬ (splitFields 5 10 0x7E00).ef < 2 ^ 5 - 1) := by decide

/-- EnumeratorYieldsDecodablePrefix: a chunk boundary inside the range. -/
theorem witness_enumerate : fp16.fmt.valid = true ∧ 65535 ≤ enumerateCount Config.default 16 none := by decide

/-- HostWidthCopyFollowsTheBlock: a right copy under a command that sets the format, one that reads it, one that fails and
one of the others. -/
theorem witness_host_copy : (fp16.fmt.valid = true → ∀ w, some 16 = some w → w = 1 + fp16.fmt.e + fp16.fmt.m) ∧
    exec (.fmtPreset 3) fp16 = .next { fp32 with responses := fp16.responses ++ [⟨.ok, .empty⟩] } ∧
    exec .fmtQuery fp16 = .next { fp16 with responses := fp16.responses ++ [⟨.ok, .constants 5 10 16 15 31 1⟩] } ∧
    exec (.fmtCustom 0 5) fp16 = .next { fp16 with responses := fp16.responses ++ [⟨.invalidFormat, .empty⟩] } ∧
    exec (.split 0xFFFF) fp16 = .next { fp16 with responses := fp16.responses ++ [⟨.ok, .fields 1 31 1023⟩] } := by
  refine ⟨fun _ w h => ?_, rfl, rfl, rfl, rfl⟩
  cases h
  rfl

/-- HostWidthCopyFollowsTheBlock: no format set and no copy, under a command that leaves both so, and a reset. -/
theorem witness_host_copy_no_format : (State.reset.fmt.valid = false → (none : Option Nat) = none) ∧
    State.reset.fmt.valid = false ∧
    exec .fmtQuery State.reset =
      .next { State.reset with responses := State.reset.responses ++ [⟨.invalidFormat, .empty⟩] } ∧
    (assertReset fp16).pending = .reset none :: [] := ⟨fun _ => rfl, rfl, rfl, rfl⟩

/-- CommandsAreAtomic, FormatCommandsFrame: an OK of each format command. -/
theorem witness_format_ok :
    decodeCommand ⟨0x00000001, 1, 4094⟩ = .command (.fmtCustom 1 4094) ∧
    responseTo 0x00000001 1 4094 fp16 = some ⟨.ok, .empty⟩ ∧ decodeCommand ⟨0x00001002, 0, 0⟩ = .command (.fmtPreset 4) ∧
    responseTo 0x00001002 0 0 fp16 = some ⟨.ok, .empty⟩ := by decide

/-- HexReadingIgnoresCaseAndLeadingZeros: a short string that is well formed, and each way not to be: the empty string, a
character outside the alphabet, and `2^T` itself. -/
theorem witness_hex_reading : ("3c".toList ≠ [] ∧ (∀ c ∈ "3c".toList, c ∈ "0123456789abcdefABCDEF".toList) ∧
      Nat.ofDigits 16 [12, 3] < 2 ^ 6) ∧ ¬ ([] : Text) ≠ [] ∧
    ¬ (∀ c ∈ "3x".toList, c ∈ "0123456789abcdefABCDEF".toList) ∧ ¬ Nat.ofDigits 16 [0, 4] < 2 ^ 6 := by
  simp [Nat.ofDigits]

/-- DecimalFormSpellsTheNumber: an integer for each clause. -/
theorem witness_decimal_form : ((-3 : Int) < 0 ∧ (-3 : Int) ≠ 0) ∧ (0 : Int) ≤ 0 := by decide

end Sys2Proof.Tests
end

section
/-! PROOFS. What a command can observe and change of the state (10_state.md): the format invariant, the frame of the
commands that do not set the format, and what a response depends on. -/

namespace Sys2Proof.Machine

/-! ## The format invariant (10_state.md R21) -/

/-- A reset leaves the parameters, and a format that is not valid is good. -/
theorem inv_takeReset {s : State} (h : Inv s) : Inv (takeReset s) := ⟨h.1, by simp [FmtGood]⟩

/-- A meaning keeps the invariant: a format command writes a good format or none, any other command writes none. -/
theorem exec_keeps_inv {i : Instr} {s t : State} (h : Inv s) (hx : exec i s = .next t) : Inv t := by
  cases hw : writesFormat i with
  | false =>
    obtain ⟨st, p, he, -⟩ := exec_onlyResponds s hw
    cases he.symm.trans hx
    exact h
  | true =>
    obtain ⟨e, m, he, hgood⟩ | he := exec_format_cases s hw
    · cases he.symm.trans hx
      obtain ⟨hcfg, -⟩ := h
      exact ⟨hcfg, fun _ => hgood hcfg.1⟩
    · cases he.symm.trans hx
      exact h

/-- Settles O14, by the kind of the event the step takes. -/
theorem stepKeepsFormatInvariant : Obligations.StepKeepsFormatInvariant := by
  intro s t h hs
  match hp : s.pending with
  | [] =>
    cases (step_nil hp).symm.trans hs
    exact h
  | .reset _ :: _ =>
    cases (step_reset hp).symm.trans hs
    exact inv_takeReset h
  | .command c :: rest =>
    cases hd : decodeCommand c with
    | command i => exact exec_keeps_inv (s := { s with pending := rest }) h ((step_command hp hd).symm.trans hs)
    | rejected r =>
      cases (step_rejected hp hd).symm.trans hs
      exact h

/-- Settles O15: the default parameters meet their constraints, and FMT.VALID is 0. -/
theorem resetMeetsFormatInvariant : Obligations.ResetMeetsFormatInvariant :=
  ⟨by simp [Config.wf, State.reset, Config.default], by simp [FmtGood, State.reset]⟩

/-! ## The frame of the commands that do not set the format (10_state.md R20, R22) -/

theorem writesFormat_eq_false {i : Instr} (hc : ∀ e m, i ≠ .fmtCustom e m) (hp : ∀ p, i ≠ .fmtPreset p) :
    writesFormat i = false := by
  cases i with
  | fmtCustom e m => exact absurd rfl (hc e m)
  | fmtPreset p => exact absurd rfl (hp p)
  | _ => rfl

/-- Settles O10: such a command only responds. -/
theorem otherCommandsFrame : Obligations.OtherCommandsFrame := by
  intro i s t hc hp hx
  obtain ⟨st, p, he, -⟩ := exec_onlyResponds s (writesFormat_eq_false hc hp)
  cases he.symm.trans hx
  exact ⟨rfl, rfl, rfl, rfl, ⟨st, p⟩, rfl⟩

/-! ## What a response depends on (10_state.md R30, R32) -/

/-- The two states agree on the parameters, and on FMT or in having no format: on all that a command can observe
(`exec_answerAlike`). -/
def Alike (s s' : State) : Prop :=
  s.config = s'.config ∧ (s.fmt = s'.fmt ∨ (s.fmt.valid = false ∧ s'.fmt.valid = false))

/-- The results `x` from `s` and `x'` from `s'` add the same response and either leave the same FMT or each leave FMT as it
was, and change nothing else. -/
def AnswerAlike (s s' : State) (x x' : Result) : Prop :=
  ∃ (f f' : Fmt) (r : Response), x = .next { s with fmt := f, responses := s.responses ++ [r] } ∧
    x' = .next { s' with fmt := f', responses := s'.responses ++ [r] } ∧ (f = f' ∨ (f = s.fmt ∧ f' = s'.fmt))

section
variable {s s' : State}

theorem answerAlike_respond (st : Status) (p : Payload) : AnswerAlike s s' (respond st p s) (respond st p s') :=
  ⟨s.fmt, s'.fmt, ⟨st, p⟩, rfl, rfl, .inr ⟨rfl, rfl⟩⟩

theorem answerAlike_answer (p : Payload) : AnswerAlike s s' (answer p s) (answer p s') := answerAlike_respond .ok p

theorem answerAlike_raise (st : Status) : AnswerAlike s s' (raise st s) (raise st s') := answerAlike_respond st .empty

theorem answerAlike_writeFmt (e m : Nat) (p : Payload) :
    AnswerAlike s s' (answer p (writeFmt e m s)) (answer p (writeFmt e m s')) :=
  ⟨⟨true, e, m⟩, ⟨true, e, m⟩, ⟨.ok, p⟩, rfl, rfl, .inl rfl⟩

/-- The guard passes on FMT.E and FMT.M only where the two states agree on them. -/
theorem answerAlike_withFormat {k : Nat → Nat → State → Result} (ha : Alike s s')
    (h : ∀ e m, AnswerAlike s s' (k e m s) (k e m s')) : AnswerAlike s s' (withFormat k s) (withFormat k s') := by
  obtain ⟨-, hf | ⟨hv, hv'⟩⟩ := ha
  · cases hv : s.fmt.valid with
    | false =>
      rw [withFormat_invalid k s hv, withFormat_invalid k s' (hf ▸ hv)]
      exact answerAlike_raise _
    | true =>
      rw [withFormat_valid k s hv, withFormat_valid k s' (hf ▸ hv), ← hf]
      exact h _ _
  · rw [withFormat_invalid k s hv, withFormat_invalid k s' hv']
    exact answerAlike_raise _

theorem answerAlike_wellFormedOr {x : Option Nat} {k : Nat → State → Result}
    (h : ∀ n, AnswerAlike s s' (k n s) (k n s')) : AnswerAlike s s' (wellFormedOr x k s) (wellFormedOr x k s') := by
  cases x with
  | none => exact answerAlike_raise _
  | some n => exact h n

/-- A meaning reads FMT through the guard alone, and beside it only the parameters. -/
theorem exec_answerAlike (i : Instr) (ha : Alike s s') : AnswerAlike s s' (exec i s) (exec i s') := by
  have hcfg : s.config = s'.config := ha.1
  cases i with
  | fmtCustom e m =>
    simp only [exec, execFmtCustom, hcfg]
    split
    · exact answerAlike_writeFmt _ _ _
    · exact answerAlike_raise _
  | fmtPreset p =>
    simp only [exec, execFmtPreset]
    cases presetWidths p with
    | none => exact answerAlike_raise _
    | some w => exact answerAlike_writeFmt _ _ _
  | fmtQuery =>
    simp only [exec, execFmtQuery]
    exact answerAlike_withFormat ha fun _ _ => answerAlike_answer _
  | classify sign ef sf =>
    simp only [exec, execClassify]
    exact answerAlike_withFormat ha fun _ _ => answerAlike_wellFormedOr fun _ => answerAlike_wellFormedOr fun _ =>
      answerAlike_answer _
  | split bits =>
    simp only [exec, execSplit]
    exact answerAlike_withFormat ha fun _ _ => answerAlike_wellFormedOr fun _ => answerAlike_answer _
  | pack sign ef sf =>
    simp only [exec, execPack]
    exact answerAlike_withFormat ha fun _ _ => answerAlike_wellFormedOr fun _ => answerAlike_wellFormedOr fun _ =>
      answerAlike_answer _
  | decode bits =>
    simp only [exec, execDecode]
    exact answerAlike_withFormat ha fun _ _ => answerAlike_wellFormedOr fun _ => answerAlike_answer _
  | encodeRat sign num den =>
    simp only [exec, execEncodeRat]
    refine answerAlike_withFormat ha fun _ _ => answerAlike_wellFormedOr fun _ => answerAlike_wellFormedOr fun d => ?_
    simp only [hcfg]
    split
    · exact answerAlike_raise _
    · exact answerAlike_answer _
  | encodeDec sign digits exp10 =>
    simp only [exec, execEncodeDec]
    refine answerAlike_withFormat ha fun _ _ => answerAlike_wellFormedOr fun _ => ?_
    simp only [hcfg]
    exact answerAlike_answer _
  | encodeNf sign k =>
    simp only [exec, execEncodeNf]
    refine answerAlike_withFormat ha fun _ m => ?_
    simp only [hcfg]
    split
    · exact answerAlike_raise _
    · cases k with
      | infinity => exact answerAlike_answer _
      | nan =>
        dsimp only
        split
        · exact answerAlike_raise _
        · exact answerAlike_answer _

/-- Two states no command tells apart answer the same command alike, whatever waits behind it. -/
theorem step_answerAlike {c : Command} {rest rest' : List Event} (h : s.pending = .command c :: rest)
    (h' : s'.pending = .command c :: rest') (ha : Alike s s') :
    AnswerAlike { s with pending := rest } { s' with pending := rest' } (step s) (step s') := by
  cases hd : decodeCommand c with
  | command i =>
    rw [step_command h hd, step_command h' hd]
    exact exec_answerAlike i ha
  | rejected r =>
    rw [step_rejected h hd, step_rejected h' hd]
    exact answerAlike_raise .illegalCommand

end

/-- Settles O12: states that agree on FMT and the parameters are alike, and leave the same FMT. -/
theorem responseDependsOnlyOnFormatAndParameters : Obligations.ResponseDependsOnlyOnFormatAndParameters := by
  intro s s' c rest rest' h h' hf hc
  obtain ⟨f, f', r, hs, hs', hff⟩ := step_answerAlike h h' ⟨hc, .inl hf⟩
  have hsame : f = f' := by
    obtain heq | ⟨rfl, rfl⟩ := hff
    · exact heq
    · exact hf
  subst hsame
  exact ⟨f, r, hs, hs'⟩

/-- Settles O18: states without a format are alike, whatever FMT.E and FMT.M hold. -/
theorem formatUnobservableWhileInvalid : Obligations.FormatUnobservableWhileInvalid :=
  ⟨rfl, fun s _ _ e' m' h hv => step_answerAlike (s' := { s with fmt := ⟨false, e', m'⟩ }) h h ⟨rfl, .inr ⟨hv, rfl⟩⟩⟩

end Sys2Proof.Machine
end

section
/-! PROOFS. The order of commands and their atomicity (20_memory.md R44 to R46): a step is the meaning of the oldest
command, what it may do to FMT, that repeating it changes nothing more, and that a queue runs to its end in order. -/

namespace Sys2Proof.Machine

/-! ## A step is the meaning of the decoded command (20_memory.md R44) -/

/-- A table word decodes as the header it is, with both slots 0. -/
theorem decodeCommand_of_decodeTableWord {nbits w : Nat} {i : Instr} (h : decodeTableWord nbits w = some i) :
    decodeCommand ⟨BitVec.ofNat 32 w, 0, 0⟩ = .command i := by
  unfold decodeTableWord at h
  split at h
  · cases hd : decodeCommand ⟨BitVec.ofNat 32 w, 0, 0⟩ with
    | command j => simpa [hd] using h
    | rejected r => simp [hd] at h
  · cases h

/-- Settles O7: taking the placed word from the queue gives the state back. -/
theorem stepRunsTheDecodedCommand : Obligations.StepRunsTheDecodedCommand :=
  ⟨fun _ _ _ _ => step_command, fun s nbits w _ _ _ h =>
    step_command (withFetchWord_pending s nbits w) (decodeCommand_of_decodeTableWord h)⟩

/-! ## What a command may do to FMT (20_memory.md R45) -/

/-- What the command decoded as `d` may do to FMT, which was `f₀`, when it answers `r` and leaves FMT at `f`. -/
structure FmtEffect (d : Decoded) (f₀ f : Fmt) (r : Response) : Prop where
  kept_of_not_ok : r.status ≠ .ok → f = f₀
  written_by_format_command : f ≠ f₀ →
    (∃ e m, d = .command (.fmtCustom e m)) ∨ ∃ p, d = .command (.fmtPreset p)
  custom_widths : ∀ e m, d = .command (.fmtCustom e m) → r.status = .ok →
    f.valid = true ∧ (f.e : Int) = e ∧ (f.m : Int) = m
  preset_widths : ∀ p, d = .command (.fmtPreset p) → r.status = .ok → f.valid = true ∧
    (p, f.e, f.m) ∈ ([(0, 5, 10), (1, 8, 7), (2, 8, 10), (3, 8, 23), (4, 11, 52)] : List (Nat × Nat × Nat))

/-- Leaving FMT as it was is allowed to a command that fails. -/
theorem fmtEffect_of_not_ok {d : Decoded} {f : Fmt} {r : Response} (hr : r.status ≠ .ok) : FmtEffect d f f r :=
  ⟨fun _ => rfl, fun h => absurd rfl h, fun _ _ _ h => absurd h hr, fun _ _ h => absurd h hr⟩

/-- Leaving FMT as it was is allowed to a command that is none of the two that set the format. -/
theorem fmtEffect_of_writesFormat_eq_false {i : Instr} {f : Fmt} {r : Response} (hi : writesFormat i = false) :
    FmtEffect (.command i) f f r where
  kept_of_not_ok _ := rfl
  written_by_format_command h := absurd rfl h
  custom_widths e m h := by cases h; cases hi
  preset_widths p h := by cases h; cases hi

theorem fmtEffect_fmtCustom {e m : Int} (he : 0 ≤ e) (hm : 0 ≤ m) (f₀ : Fmt) :
    FmtEffect (.command (.fmtCustom e m)) f₀ ⟨true, e.toNat, m.toNat⟩ ⟨.ok, .empty⟩ where
  kept_of_not_ok h := absurd rfl h
  written_by_format_command _ := .inl ⟨e, m, rfl⟩
  custom_widths e' m' h _ := by
    cases h
    exact ⟨rfl, Int.toNat_of_nonneg he, Int.toNat_of_nonneg hm⟩
  preset_widths _ h := by cases h

theorem fmtEffect_fmtPreset {p e m : Nat} (hp : presetWidths p = some (e, m)) (f₀ : Fmt) :
    FmtEffect (.command (.fmtPreset p)) f₀ ⟨true, e, m⟩ ⟨.ok, .empty⟩ where
  kept_of_not_ok h := absurd rfl h
  written_by_format_command _ := .inr ⟨p, rfl⟩
  custom_widths _ _ h := by cases h
  preset_widths p' h _ := by
    cases h
    exact ⟨rfl, presetWidths_eq_some hp⟩

/-- A meaning adds one response and otherwise touches FMT at most, within what its command may do. -/
theorem exec_fmtEffect (i : Instr) (s : State) : ∃ (f : Fmt) (r : Response),
    exec i s = .next { s with fmt := f, responses := s.responses ++ [r] } ∧ FmtEffect (.command i) s.fmt f r := by
  cases hw : writesFormat i with
  | false =>
    obtain ⟨st, p, he, -⟩ := exec_onlyResponds s hw
    exact ⟨s.fmt, ⟨st, p⟩, he, fmtEffect_of_writesFormat_eq_false hw⟩
  | true =>
    match i, hw with
    | .fmtCustom e m, _ =>
      obtain ⟨h1, h0, he⟩ | he := exec_fmtCustom_cases e m s
      · exact ⟨_, _, he, fmtEffect_fmtCustom (by omega) h0 _⟩
      · exact ⟨s.fmt, _, he, fmtEffect_of_not_ok (by simp)⟩
    | .fmtPreset p, _ =>
      obtain ⟨e, m, hp, he⟩ | ⟨-, he⟩ := exec_fmtPreset_cases p s
      · exact ⟨_, _, he, fmtEffect_fmtPreset hp _⟩
      · exact ⟨s.fmt, _, he, fmtEffect_of_not_ok (by simp)⟩

/-- A step that takes a command, legal or not, adds one response and otherwise touches FMT at most, within what the
command may do. -/
theorem step_fmtEffect {s : State} {c : Command} {rest : List Event} (h : s.pending = .command c :: rest) :
    ∃ (f : Fmt) (r : Response),
      step s = .next { s with pending := rest, fmt := f, responses := s.responses ++ [r] } ∧
      FmtEffect (decodeCommand c) s.fmt f r := by
  cases hd : decodeCommand c with
  | command i =>
    rw [step_command h hd]
    exact exec_fmtEffect i { s with pending := rest }
  | rejected r => exact ⟨s.fmt, _, step_rejected h hd, fmtEffect_of_not_ok (by simp)⟩

/-- Settles O8: the clauses are what a command may do to FMT. -/
theorem commandsAreAtomic : Obligations.CommandsAreAtomic := by
  intro s c rest h
  obtain ⟨f, r, hs, hkept, hwritten, hcustom, hpreset⟩ := step_fmtEffect h
  exact ⟨f, r, hs, hkept, hwritten, hcustom, hpreset⟩

/-! ## Repeating a command (20_memory.md R46) -/

/-- FMT.CUSTOM and FMT.PRESET do not read FMT: they answer alike in states that agree on the parameters alone. -/
theorem exec_answerAlike_of_writesFormat {i : Instr} {s s' : State} (hw : writesFormat i = true)
    (hcfg : s.config = s'.config) : AnswerAlike s s' (exec i s) (exec i s') := by
  match i, hw with
  | .fmtCustom e m, _ =>
    simp only [exec, execFmtCustom, hcfg]
    split
    · exact answerAlike_writeFmt _ _ _
    · exact answerAlike_raise _
  | .fmtPreset p, _ =>
    simp only [exec, execFmtPreset]
    cases presetWidths p with
    | none => exact answerAlike_raise _
    | some w => exact answerAlike_writeFmt _ _ _

/-- A command answers alike before and after itself: it reads FMT only if it does not write it. -/
theorem exec_answerAlike_repeated {i : Instr} {s t : State} (hx : exec i s = .next t) :
    AnswerAlike s t (exec i s) (exec i t) := by
  cases hw : writesFormat i with
  | false =>
    obtain ⟨st, p, he, -⟩ := exec_onlyResponds s hw
    cases he.symm.trans hx
    exact exec_answerAlike i ⟨rfl, .inl rfl⟩
  | true =>
    obtain ⟨f, r, he, -⟩ := exec_fmtEffect i s
    cases he.symm.trans hx
    exact exec_answerAlike_of_writesFormat hw rfl

/-- Settles O13: the second answer is like the first, so it leaves the FMT the first left. -/
theorem repeatingACommandGivesTheSameResponse : Obligations.RepeatingACommandGivesTheSameResponse := by
  intro i s t hx
  obtain ⟨f, f', r, hs, ht, hf⟩ := exec_answerAlike_repeated hx
  cases hs.symm.trans hx
  have hsame : f' = f := by
    obtain heq | ⟨-, hkept⟩ := hf
    · exact heq.symm
    · exact hkept
  subst hsame
  exact ⟨r, rfl, ht⟩

/-! ## Running a queue to its end (20_memory.md R44, 70_reset_and_hazards.md R267, R269) -/

/-- Whether the event is a command, which is answered, and not a reset, which is not. -/
def isCommand : Event → Bool
  | .command _ => true
  | .reset _ => false

/-- A step on the event `ev` does the same whatever waits behind it: it adds one response for a command and none for a
reset. -/
theorem step_whatever_waits (s : State) (ev : Event) : ∃ (t : State) (rs : List Response),
    (∀ rest, step { s with pending := ev :: rest } = .next { t with pending := rest }) ∧
    t.responses = s.responses ++ rs ∧ rs.length = [ev].countP isCommand := by
  cases ev with
  | reset c =>
    exact ⟨takeReset s, [], fun rest => step_reset (s := { s with pending := .reset c :: rest }) rfl, by simp, rfl⟩
  | command c =>
    obtain ⟨f, r, hs, -⟩ := step_fmtEffect (s := { s with pending := [.command c] }) rfl
    refine ⟨{ s with fmt := f, responses := s.responses ++ [r] }, [r], fun rest => ?_, rfl, rfl⟩
    obtain ⟨f', r', hs', hrest⟩ := responseDependsOnlyOnFormatAndParameters { s with pending := [.command c] }
      { s with pending := .command c :: rest } c [] rest rfl rfl rfl rfl
    obtain ⟨rfl, rfl⟩ : f = f' ∧ r = r' := by simpa using hs.symm.trans hs'
    exact hrest

theorem run_succ_of_step {M : Host.Core} {s t : M.State} (k : Nat) (h : M.step s = .next t) :
    M.run (k + 1) s = M.run k t := by
  rw [Host.Core.run, h]

/-- A run over the events `first` does the same whatever waits behind them: it adds one response for each command among
them. -/
theorem run_whatever_waits (first : List Event) (s : State) : ∃ (t : State) (rs : List Response),
    (∀ later, Host.Core.run core first.length { s with pending := first ++ later } =
      .next { t with pending := later }) ∧
    t.responses = s.responses ++ rs ∧ rs.length = first.countP isCommand := by
  induction first generalizing s with
  | nil => exact ⟨s, [], fun _ => rfl, by simp, rfl⟩
  | cons ev rest ih =>
    obtain ⟨t, rs, hstep, ht, hrs⟩ := step_whatever_waits s ev
    obtain ⟨u, rs', hrun, hu, hrs'⟩ := ih t
    refine ⟨u, rs ++ rs', fun later => ?_, by rw [hu, ht, List.append_assoc], ?_⟩
    · exact (run_succ_of_step rest.length (hstep (rest ++ later))).trans (hrun later)
    · rw [List.length_append, hrs, hrs', ← List.countP_append, List.singleton_append]

/-- Settles O9: the whole queue with nothing behind it, and its first part with and without the rest behind it. -/
theorem everyIssuedCommandIsAnsweredInOrder : Obligations.EveryIssuedCommandIsAnsweredInOrder := by
  refine ⟨fun s => ?_, fun s first later h => ?_⟩
  · obtain ⟨t, rs, hrun, ht, hrs⟩ := run_whatever_waits s.pending s
    have hall := hrun []
    rw [List.append_nil] at hall
    exact ⟨{ t with pending := [] }, rs, hall, rfl, ht, hrs⟩
  · obtain ⟨t, -, hrun, -⟩ := run_whatever_waits first s
    have hfirst := hrun []
    have hwhole := hrun later
    rw [List.append_nil] at hfirst
    rw [← h] at hwhole
    exact ⟨{ t with pending := [] }, { t with pending := later }, hfirst, hwhole, rfl⟩

end Sys2Proof.Machine
end

section
/-! PROOFS. The words of a command (30_encoding.md): decoding and encoding are inverse, the opcode table accepts what the
decoder accepts, a slot a command does not name has no effect, and a failed response is empty. -/

namespace Sys2Proof.Machine

open Laws.EncodedHeader (opcode)

/-! ## Decoding an encoded command (30_encoding.md R51, R56) -/

/-- The header of a well-formed command passes the checks of 30_encoding.md R54. -/
theorem encodedHeader_legal (i : Instr) : Laws.EncodedHeader.Statement i := by
  cases i with
  | fmtCustom e m => exact Laws.EncodedHeader.fmtCustom e m
  | fmtPreset p => exact Laws.EncodedHeader.fmtPreset p
  | fmtQuery => exact Laws.EncodedHeader.fmtQuery
  | classify s ef sf => exact Laws.EncodedHeader.classify s ef sf
  | split bits => exact Laws.EncodedHeader.split bits
  | pack s ef sf => exact Laws.EncodedHeader.pack s ef sf
  | decode bits => exact Laws.EncodedHeader.decode bits
  | encodeRat s num den => exact Laws.EncodedHeader.encodeRat s num den
  | encodeDec s digits exp10 => exact Laws.EncodedHeader.encodeDec s digits exp10
  | encodeNf s k => exact Laws.EncodedHeader.encodeNf s k

/-- The opcode of an encoded command names that command, and its fields and slots are the command's own. -/
theorem fromOpcode_encode {i : Instr} (h : i.wf = true) : fromOpcode (encode i) = some i := by
  obtain ⟨ho, -, -⟩ := encodedHeader_legal i h
  rw [fromOpcode, ho]
  cases i with
  | fmtPreset p =>
    have hp : p < 8 := of_decide_eq_true h
    simp [opcode, encode, presetField_headerWord _ _ _ hp]
  | encodeNf s k => simp [opcode, encode, signField_headerWord, kindField_headerWord]
  | fmtCustom | fmtQuery | split | decode => rfl
  | classify | pack | encodeRat | encodeDec => simp [opcode, encode, signField_headerWord]

/-- Settles O4: the encoded header names the command and passes the decoder's checks. -/
theorem decodingEncodedCommandGivesItBack : Obligations.DecodingEncodedCommandGivesItBack := by
  intro i h
  obtain ⟨-, hreserved, hunused⟩ := encodedHeader_legal i h
  exact decodeCommand_eq_command.mpr ⟨fromOpcode_encode h, hreserved, hunused⟩

/-! ## Encoding a decoded command (30_encoding.md R51, R52) -/

/-- No field is set that the command does not use (30_encoding.md R54). -/
theorem unusedFieldSet_eq_false {i : Instr} {h : Header} : unusedFieldSet i h = false ↔
    (usesSign i = false → signField h = false) ∧ (usesKind i = false → kindField h = .infinity) ∧
      (usesPreset i = false → presetField h = 0) := by
  have hk : kindField h = .infinity ↔ kindField h ≠ .nan := by cases kindField h <;> simp
  simp [unusedFieldSet, hk, and_assoc]

/-- A header accepted for a command is made of its opcode and the fields the command uses. -/
theorem headerWord_used_fields {i : Instr} {h : Header} (hr : reservedField h = 0) (hu : unusedFieldSet i h = false) :
    headerWord (opcField h) (usesSign i && signField h) (if usesKind i then kindField h else .infinity)
      (if usesPreset i then presetField h else 0) = h := by
  obtain ⟨hs, hk, hp⟩ := unusedFieldSet_eq_false.mp hu
  have hs' : (usesSign i && signField h) = signField h := by cases hi : usesSign i <;> simp [hi, hs]
  have hk' : (if usesKind i then kindField h else .infinity) = kindField h := by cases hi : usesKind i <;> simp [hi, hk]
  have hp' : (if usesPreset i then presetField h else 0) = presetField h := by cases hi : usesPreset i <;> simp [hi, hp]
  rw [hs', hk', hp', headerWord_fields h hr]

theorem wf_of_fromOpcode {c : Command} {i : Instr} (h : fromOpcode c = some i) : i.wf = true := by
  obtain ⟨-, rfl⟩ | ⟨-, rfl⟩ | ⟨-, rfl⟩ | ⟨-, rfl⟩ | ⟨-, rfl⟩ | ⟨-, rfl⟩ | ⟨-, rfl⟩ | ⟨-, rfl⟩ | ⟨-, rfl⟩ | ⟨-, rfl⟩ :=
    fromOpcode_eq_some.mp h
  case inr.inl => exact decide_eq_true (presetField_lt c.hdr)
  all_goals rfl

/-- Settles O5: the encoder writes the opcode and the fields the command uses, and those are the whole header. -/
theorem encodingDecodedCommandGivesItsWords : Obligations.EncodingDecodedCommandGivesItsWords := by
  intro c i h
  obtain ⟨hf, hr, hu⟩ := decodeCommand_eq_command.mp h
  refine ⟨wf_of_fromOpcode hf, ?_⟩
  have hh := headerWord_used_fields hr hu
  obtain ⟨ho, rfl⟩ | ⟨ho, rfl⟩ | ⟨ho, rfl⟩ | ⟨ho, rfl⟩ | ⟨ho, rfl⟩ | ⟨ho, rfl⟩ | ⟨ho, rfl⟩ | ⟨ho, rfl⟩ | ⟨ho, rfl⟩ |
    ⟨ho, rfl⟩ := fromOpcode_eq_some.mp hf
  all_goals
    rw [ho] at hh
    exact congrArg (Command.mk · _ _) hh

/-! ## The opcode table (30_encoding.md R56) -/

/-- The header bits a row fixes: the opcode and the reserved bits, and each field the command does not use. -/
def rowMask (sign kind preset : Bool) : Header :=
  0xFFFFE000 ||| headerWord 0xFF (!sign) (if kind then .infinity else .nan) (if preset then 0 else 7)

/-- A command's mnemonic in the opcode table. -/
def mnemonic : Instr → String
  | .fmtCustom _ _ => "FMT.CUSTOM" | .fmtPreset _ => "FMT.PRESET" | .fmtQuery => "FMT.QUERY"
  | .classify _ _ _ => "CLASSIFY" | .split _ => "SPLIT" | .pack _ _ _ => "PACK" | .decode _ => "DECODE"
  | .encodeRat _ _ _ => "ENCODE.RAT" | .encodeDec _ _ _ => "ENCODE.DEC" | .encodeNf _ _ => "ENCODE.NF"

/-- A command's row, from its opcode and the fields it uses. -/
def rowOf (i : Instr) : OpcodeRow :=
  ⟨mnemonic i, headerWord (opcode i) false .infinity 0, rowMask (usesSign i) (usesKind i) (usesPreset i)⟩

/-- The table holds the commands' rows and no other (opcode_table.json). -/
theorem mem_opcodeTable {r : OpcodeRow} : r ∈ opcodeTable ↔ ∃ i, r = rowOf i := by
  constructor
  · intro h
    simp only [opcodeTable, List.mem_cons, List.not_mem_nil, or_false] at h
    obtain h | h | h | h | h | h | h | h | h | h := h
    · exact ⟨.fmtCustom 0 0, h⟩
    · exact ⟨.fmtPreset 0, h⟩
    · exact ⟨.fmtQuery, h⟩
    · exact ⟨.classify false 0 0, h⟩
    · exact ⟨.split 0, h⟩
    · exact ⟨.pack false 0 0, h⟩
    · exact ⟨.decode 0, h⟩
    · exact ⟨.encodeRat false 0 0, h⟩
    · exact ⟨.encodeDec false 0 0, h⟩
    · exact ⟨.encodeNf false .nan, h⟩
  · rintro ⟨i, rfl⟩
    cases i <;> simp [opcodeTable, rowOf, mnemonic, opcode, rowMask, headerWord, bitOf, usesSign, usesKind, usesPreset]

section
variable (h h' : Header)

/-- A header is determined by its fields (30_encoding.md R51). -/
theorem header_ext_iff : h = h' ↔ opcField h = opcField h' ∧ signField h = signField h' ∧ kindField h = kindField h' ∧
    presetField h = presetField h' ∧ reservedField h = reservedField h' := by
  constructor
  · rintro rfl
    simp
  · rintro ⟨ho, hs, hk, hp, hr⟩
    have hk' : h.toNat / 512 % 2 = 1 ↔ h'.toNat / 512 % 2 = 1 := by
      simp only [kindField_eq] at hk
      split at hk <;> split at hk <;> simp_all
    simp only [opcField_eq, signField_eq, presetField_eq, reservedField_eq, decide_eq_decide] at ho hs hp hr
    apply BitVec.eq_of_toNat_eq
    omega

theorem opcField_and : opcField (h &&& h') = opcField h &&& opcField h' := by
  simp [opcField, BitVec.extractLsb'_and]

theorem signField_and : signField (h &&& h') = (signField h && signField h') := by
  simp [signField]

theorem kindField_and : kindField (h &&& h') = if kindField h' = .nan then kindField h else .infinity := by
  by_cases hb : h'[9] = true <;> simp [kindField, hb]

theorem presetField_and : presetField (h &&& h') = presetField h &&& presetField h' := by
  rw [presetField, BitVec.extractLsb'_and, BitVec.toNat_and, presetField, presetField]

theorem reservedField_and : reservedField (h &&& h') = reservedField h &&& reservedField h' := by
  simp [reservedField, BitVec.extractLsb'_and]

end

/-- In each field the mask has all bits set, or none where the field is used. -/
theorem rowMask_fields (sign kind preset : Bool) :
    opcField (rowMask sign kind preset) = 255 ∧ signField (rowMask sign kind preset) = !sign ∧
      kindField (rowMask sign kind preset) = (if kind then .infinity else .nan) ∧
      presetField (rowMask sign kind preset) = (if preset then 0 else 7) ∧
      reservedField (rowMask sign kind preset) = 2 ^ 19 - 1 := by
  revert sign kind preset
  decide

/-- `hdr & mask = match` says that the header has the opcode and no bit set but in the fields the mask leaves free. -/
theorem and_rowMask_eq_iff {h : Header} {opc : Nat} (hopc : opc < 256) (sign kind preset : Bool) :
    h &&& rowMask sign kind preset = headerWord opc false .infinity 0 ↔
    opcField h = opc ∧ reservedField h = 0 ∧ (sign = false → signField h = false) ∧
      (kind = false → kindField h = .infinity) ∧ (preset = false → presetField h = 0) := by
  obtain ⟨ho, hs, hk, hp, hr⟩ := rowMask_fields sign kind preset
  have hopcode : opcField h &&& 255 = opcField h :=
    Nat.and_two_pow_sub_one_of_lt_two_pow (n := 8) (by rw [opcField_eq]; omega)
  have hreserved : reservedField h &&& (2 ^ 19 - 1) = reservedField h :=
    Nat.and_two_pow_sub_one_of_lt_two_pow (by rw [reservedField_eq]; omega)
  have hsign : (signField h && !sign) = false ↔ (sign = false → signField h = false) := by cases sign <;> simp
  have hkind : (if (if kind then NonFinite.infinity else .nan) = .nan then kindField h else .infinity) = .infinity ↔
      (kind = false → kindField h = .infinity) := by cases kind <;> simp
  have hpreset : presetField h &&& (if preset then 0 else 7) = 0 ↔ (preset = false → presetField h = 0) := by
    have h7 : presetField h &&& 7 = presetField h :=
      Nat.and_two_pow_sub_one_of_lt_two_pow (n := 3) (presetField_lt h)
    cases preset <;> simp [h7]
  rw [header_ext_iff, opcField_and, signField_and, kindField_and, presetField_and, reservedField_and, ho, hs, hk, hp, hr,
    hopcode, hreserved, opcField_headerWord _ _ hopc (by omega), signField_headerWord _ _ hopc (by omega),
    kindField_headerWord _ _ hopc (by omega), presetField_headerWord _ _ hopc (by omega),
    reservedField_headerWord _ _ hopc (by omega), hsign, hkind, hpreset]
  exact ⟨fun ⟨o, s, k, p, r⟩ => ⟨o, r, s, k, p⟩, fun ⟨o, r, s, k, p⟩ => ⟨o, s, k, p, r⟩⟩

theorem opcode_lt (i : Instr) : opcode i < 256 := by
  cases i <;> simp [opcode]

/-- A row of the table accepts what the decoder accepts under the row's opcode. -/
theorem rowOf_accepts {i : Instr} {h : Header} :
    (rowOf i).accepts h = true ↔ opcField h = opcode i ∧ reservedField h = 0 ∧ unusedFieldSet i h = false := by
  rw [OpcodeRow.accepts, beq_iff_eq, unusedFieldSet_eq_false]
  exact and_rowMask_eq_iff (opcode_lt i) _ _ _

theorem opcField_of_fromOpcode {c : Command} {i : Instr} (h : fromOpcode c = some i) : opcField c.hdr = opcode i := by
  obtain ⟨ho, rfl⟩ | ⟨ho, rfl⟩ | ⟨ho, rfl⟩ | ⟨ho, rfl⟩ | ⟨ho, rfl⟩ | ⟨ho, rfl⟩ | ⟨ho, rfl⟩ | ⟨ho, rfl⟩ | ⟨ho, rfl⟩ |
    ⟨ho, rfl⟩ := fromOpcode_eq_some.mp h <;> exact ho

/-- Every opcode of the table names a command. -/
theorem exists_fromOpcode {c : Command} {i : Instr} (h : opcField c.hdr = opcode i) : ∃ j, fromOpcode c = some j := by
  rw [fromOpcode, h]
  cases i <;> exact ⟨_, rfl⟩

/-- The rows of the table have different opcodes. -/
theorem opcodeTable_pattern_injective :
    ∀ r ∈ opcodeTable, ∀ r' ∈ opcodeTable, opcField r.pattern = opcField r'.pattern → r = r' := by
  decide

theorem rowOf_mem (i : Instr) : rowOf i ∈ opcodeTable := mem_opcodeTable.mpr ⟨i, rfl⟩

theorem rowOf_eq_of_opcode_eq {i j : Instr} (h : opcode i = opcode j) : rowOf i = rowOf j := by
  refine opcodeTable_pattern_injective _ (rowOf_mem i) _ (rowOf_mem j) ?_
  simp only [rowOf, h]

theorem rowOf_accepts_of_decodeCommand {c : Command} {i : Instr} (h : decodeCommand c = .command i) :
    (rowOf i).accepts c.hdr = true := by
  obtain ⟨hf, hr, hu⟩ := decodeCommand_eq_command.mp h
  exact rowOf_accepts.mpr ⟨opcField_of_fromOpcode hf, hr, hu⟩

/-- A row accepts a header only if the decoder does. -/
theorem decodeCommand_of_accepts {c : Command} {r : OpcodeRow} (hr : r ∈ opcodeTable) (ha : r.accepts c.hdr = true) :
    ∃ i, decodeCommand c = .command i := by
  obtain ⟨i, rfl⟩ := mem_opcodeTable.mp hr
  obtain ⟨ho, hres, -⟩ := rowOf_accepts.mp ha
  obtain ⟨j, hj⟩ := exists_fromOpcode ho
  rw [rowOf_eq_of_opcode_eq (ho.symm.trans (opcField_of_fromOpcode hj))] at ha
  obtain ⟨-, -, hu⟩ := rowOf_accepts.mp ha
  exact ⟨j, decodeCommand_eq_command.mpr ⟨hj, hres, hu⟩⟩

/-- A header has one opcode, and an opcode one row. -/
theorem row_unique {h : Header} {r r' : OpcodeRow} (hr : r ∈ opcodeTable) (hr' : r' ∈ opcodeTable)
    (ha : r.accepts h = true) (ha' : r'.accepts h = true) : r = r' := by
  obtain ⟨i, rfl⟩ := mem_opcodeTable.mp hr
  obtain ⟨j, rfl⟩ := mem_opcodeTable.mp hr'
  obtain ⟨ho, -⟩ := rowOf_accepts.mp ha
  obtain ⟨ho', -⟩ := rowOf_accepts.mp ha'
  exact rowOf_eq_of_opcode_eq (ho.symm.trans ho')

/-- Settles O3: the row that accepts a decoded header is the row of its command. -/
theorem acceptedHeadersMatchOneTableRow : Obligations.AcceptedHeadersMatchOneTableRow := by
  refine ⟨fun c => ⟨fun ⟨i, h⟩ => ⟨rowOf i, rowOf_mem i, rowOf_accepts_of_decodeCommand h⟩,
    fun ⟨r, hr, ha⟩ => decodeCommand_of_accepts hr ha⟩, fun h r r' => row_unique, fun c i r h hr ha => ?_⟩
  rw [row_unique hr (rowOf_mem i) ha (rowOf_accepts_of_decodeCommand h)]
  cases i <;> rfl

/-! ## Slots a command does not name (30_encoding.md R52) -/

/-- The decoder reads the slots only to fill the command the opcode names. -/
theorem decodeCommand_congr {c c' : Command} (hh : c.hdr = c'.hdr) (hf : fromOpcode c = fromOpcode c') :
    decodeCommand c = decodeCommand c' := by
  rw [decodeCommand, decodeCommand, hf, hh]

/-- A step sees of a command only what it decodes to. -/
theorem step_placeNext_congr {c c' : Command} (s : State) (h : decodeCommand c = decodeCommand c') :
    step (placeNext c s) = step (placeNext c' s) := by
  cases hd : decodeCommand c with
  | command i => rw [step_command rfl hd, step_command rfl (h ▸ hd)]; rfl
  | rejected r => rw [step_rejected rfl hd, step_rejected rfl (h ▸ hd)]; rfl

theorem fromOpcode_slotB {h : Header} (a b b' : Int) (ho : opcField h ∈ [0x02, 0x03, 0x11, 0x20, 0x32]) :
    fromOpcode ⟨h, a, b⟩ = fromOpcode ⟨h, a, b'⟩ := by
  simp only [List.mem_cons, List.not_mem_nil, or_false] at ho
  obtain ho | ho | ho | ho | ho := ho <;> simp [fromOpcode, ho]

theorem fromOpcode_slotA {h : Header} (a a' b : Int) (ho : opcField h ∈ [0x02, 0x03, 0x32]) :
    fromOpcode ⟨h, a, b⟩ = fromOpcode ⟨h, a', b⟩ := by
  simp only [List.mem_cons, List.not_mem_nil, or_false] at ho
  obtain ho | ho | ho := ho <;> simp [fromOpcode, ho]

/-- Settles O6: the slot is not in the command the opcode names. -/
theorem unnamedSlotsHaveNoEffect : Obligations.UnnamedSlotsHaveNoEffect := by
  intro h a a' b b' s
  rw [← opcField_eq]
  exact ⟨fun ho => step_placeNext_congr s (decodeCommand_congr rfl (fromOpcode_slotB a b b' ho)),
    fun ho => step_placeNext_congr s (decodeCommand_congr rfl (fromOpcode_slotA a a' b ho))⟩

/-! ## Failed responses (30_encoding.md R53) -/

/-- A meaning adds one response, empty unless it is OK. -/
theorem exec_adds_good_response {i : Instr} {s t : State} (hx : exec i s = .next t) :
    ∃ r, t.responses = s.responses ++ [r] ∧ ResponseGood r := by
  cases hw : writesFormat i with
  | false =>
    obtain ⟨st, p, he, hgood⟩ := exec_onlyResponds s hw
    cases he.symm.trans hx
    exact ⟨⟨st, p⟩, rfl, hgood⟩
  | true =>
    obtain ⟨e, m, he, -⟩ | he := exec_format_cases s hw
    · cases he.symm.trans hx
      exact ⟨_, rfl, fun _ => rfl⟩
    · cases he.symm.trans hx
      exact ⟨_, rfl, fun _ => rfl⟩

/-- A step adds at most one response, empty unless it is OK. -/
theorem step_adds_good_responses {s t : State} (hs : step s = .next t) :
    t.responses = s.responses ∨ ∃ r, t.responses = s.responses ++ [r] ∧ ResponseGood r := by
  match hp : s.pending with
  | [] =>
    cases (step_nil hp).symm.trans hs
    exact .inl rfl
  | .reset _ :: _ =>
    cases (step_reset hp).symm.trans hs
    exact .inl rfl
  | .command c :: rest =>
    cases hd : decodeCommand c with
    | command i =>
      exact .inr (exec_adds_good_response (s := { s with pending := rest }) ((step_command hp hd).symm.trans hs))
    | rejected r =>
      cases (step_rejected hp hd).symm.trans hs
      exact .inr ⟨_, rfl, fun _ => rfl⟩

/-- Settles O16: every response is one that was there or the good one the step added. -/
theorem failedResponsesStayEmpty : Obligations.FailedResponsesStayEmpty := by
  intro s t h hs r hr
  obtain ht | ⟨r', ht, hgood⟩ := step_adds_good_responses hs
  · exact h r (ht ▸ hr)
  · rw [ht, List.mem_append, List.mem_singleton] at hr
    obtain hr | rfl := hr
    · exact h r hr
    · exact hgood

/-! ## The listed headers (30_encoding.md R62) -/

/-- What 30_encoding.md R62 says of a line it lists with the words `c`. -/
def ListedAs (line : Text) (c : Command) : Prop :=
  ∃ i, assembleLine 16 line = .command i ∧ encode i = c ∧ decodeCommand c = .command i

theorem listedAs_of_assembled {line : Text} {c : Command} (i : Instr) (hw : i.wf = true := by decide)
    (ha : assembleLine 16 line = .command i := by decide) (he : encode i = c := by decide) : ListedAs line c :=
  ⟨i, ha, he, he ▸ decodingEncodedCommandGivesItBack i hw⟩

/-- Settles O1, line by line: what it assembles to, and the words of that; they decode by the round trip. -/
theorem listedHeadersAssembleAndDecode : Obligations.ListedHeadersAssembleAndDecode := by
  change ∀ p ∈ (_ : List (String × Header × Int × Int)), ListedAs p.1.toList ⟨p.2.1, p.2.2.1, p.2.2.2⟩
  simp only [List.forall_mem_cons, List.not_mem_nil, false_imp_iff, implies_true, and_true]
  refine ⟨?_, ?_, ?_, ?_, ?_, ?_, ?_, ?_, ?_, ?_, ?_, ?_, ?_, ?_, ?_⟩
  · exact listedAs_of_assembled (.fmtCustom 5 10)
  · exact listedAs_of_assembled (.fmtPreset 0)
  · exact listedAs_of_assembled (.fmtPreset 1)
  · exact listedAs_of_assembled (.fmtPreset 2)
  · exact listedAs_of_assembled (.fmtPreset 3)
  · exact listedAs_of_assembled (.fmtPreset 4)
  · exact listedAs_of_assembled .fmtQuery
  · exact listedAs_of_assembled (.classify true 31 0)
  · exact listedAs_of_assembled (.split 0x3C00)
  · exact listedAs_of_assembled (.pack false 15 0)
  · exact listedAs_of_assembled (.decode 0x3C00)
  · exact listedAs_of_assembled (.encodeRat true 3 2)
  · exact listedAs_of_assembled (.encodeDec false 1 (-1))
  · exact listedAs_of_assembled (.encodeNf false .nan)
  · exact listedAs_of_assembled (.encodeNf true .infinity)

end Sys2Proof.Machine
end

section
/-! PROOFS. float_format_parameterizer (40_format.md): what FMT.CUSTOM, FMT.PRESET and FMT.QUERY answer, what the first
two write, and that a preset is FMT.CUSTOM with its pair. -/

namespace Sys2Proof.Machine

open Laws.EncodedHeader (opcode)

/-! ## The frame of the format commands (40_format.md R82) -/

/-- Settles O11: such a command writes a whole format and answers OK or writes nothing, and the widths of an OK are those
of its effect on FMT. -/
theorem formatCommandsFrame : Obligations.FormatCommandsFrame := by
  intro i s t hi hx
  have hw : writesFormat i = true := by
    obtain ⟨e, m, rfl⟩ | ⟨p, rfl⟩ := hi <;> rfl
  obtain ⟨e, m, he, -⟩ | he := exec_format_cases s hw
  · cases he.symm.trans hx
    obtain ⟨f, r, he', -, -, hcustom, hpreset⟩ := exec_fmtEffect i s
    obtain ⟨rfl, rfl⟩ : ⟨true, e, m⟩ = f ∧ ⟨.ok, .empty⟩ = r := by simpa using he.symm.trans he'
    exact ⟨rfl, rfl, rfl, .inl ⟨rfl, rfl, fun e m h => (hcustom e m (congrArg _ h) rfl).2,
      fun p h => (hpreset p (congrArg _ h) rfl).2⟩⟩
  · cases he.symm.trans hx
    exact ⟨rfl, rfl, rfl, .inr ⟨rfl, rfl⟩⟩

/-! ## FMT.CUSTOM (40_format.md R80, R81) -/

theorem exec_fmtCustom_of_validFormat {e m : Int} {s : State} (h : validFormat s.config.maxTotalBits e m = true) :
    exec (.fmtCustom e m) s = answer .empty (writeFmt e.toNat m.toNat s) :=
  if_pos h

theorem exec_fmtCustom_of_not_validFormat {e m : Int} {s : State} (h : ¬ validFormat s.config.maxTotalBits e m = true) :
    exec (.fmtCustom e m) s = raise .invalidFormat s :=
  if_neg h

/-- Settles O21: the two cases of the validity test. -/
theorem fmtCustomResult : Obligations.FmtCustomResult := fun e m _ =>
  ⟨decodingEncodedCommandGivesItBack (.fmtCustom e m) rfl,
    fun h => exec_fmtCustom_of_validFormat (validFormat_iff.mpr h),
    fun h => exec_fmtCustom_of_not_validFormat (mt validFormat_iff.mp h)⟩

/-! ## Commands without slots (30_encoding.md R52) -/

/-- A command that names no slot decodes from its header whatever the slots hold. -/
theorem decodeCommand_encode_slots {i : Instr} (hwf : i.wf = true) (hi : opcode i ∈ [0x02, 0x03, 0x32]) (a b : Int) :
    decodeCommand ⟨(encode i).hdr, a, b⟩ = .command i := by
  obtain ⟨ho, -, -⟩ := encodedHeader_legal i hwf
  have hA : opcField (encode i).hdr ∈ [0x02, 0x03, 0x32] := ho ▸ hi
  have hB : opcField (encode i).hdr ∈ [0x02, 0x03, 0x11, 0x20, 0x32] :=
    (by simp : [0x02, 0x03, 0x32] ⊆ [0x02, 0x03, 0x11, 0x20, 0x32]) hA
  have hslots : fromOpcode ⟨(encode i).hdr, a, b⟩ = fromOpcode (encode i) :=
    (fromOpcode_slotA a (encode i).a b hA).trans (fromOpcode_slotB (encode i).a b (encode i).b hB)
  calc decodeCommand ⟨(encode i).hdr, a, b⟩
    _ = decodeCommand (encode i) := decodeCommand_congr rfl hslots
    _ = .command i := decodingEncodedCommandGivesItBack i hwf

/-! ## FMT.PRESET (40_format.md R83, R84) -/

theorem fmtPreset_wf {p : Nat} (hp : p < 8) : (Instr.fmtPreset p).wf = true := decide_eq_true hp

theorem decodeCommand_fmtPreset {p : Nat} (hp : p < 8) (a b : Int) :
    decodeCommand ⟨BitVec.ofNat 32 (0x00000002 + p * 0x400), a, b⟩ = .command (.fmtPreset p) := by
  have hh : BitVec.ofNat 32 (0x00000002 + p * 0x400) = (encode (.fmtPreset p)).hdr := by
    simp [encode, headerWord, bitOf, Nat.add_comm]
  rw [hh]
  exact decodeCommand_encode_slots (fmtPreset_wf hp) (by simp [opcode]) a b

theorem exec_fmtPreset_of_widths {p e m : Nat} (h : presetWidths p = some (e, m)) (s : State) :
    exec (.fmtPreset p) s = answer .empty (writeFmt e m s) := by
  simp [exec, execFmtPreset, h]

theorem exec_fmtPreset_of_no_widths {p : Nat} (h : presetWidths p = none) (s : State) :
    exec (.fmtPreset p) s = raise .invalidFormat s := by
  simp [exec, execFmtPreset, h]

/-- The presets of 40_format.md R83: the id and its pair. -/
def presets : List (Nat × Nat × Nat) := [(0, 5, 10), (1, 8, 7), (2, 8, 10), (3, 8, 23), (4, 11, 52)]

theorem presetWidths_of_mem_presets : ∀ w ∈ presets, presetWidths w.1 = some w.2 := by decide

/-- The ids of the presets fit the header's field, and their pairs fit the least `MAX_TOTAL_BITS` (00_scope.md R10). -/
theorem presets_bounds : ∀ w ∈ presets, w.1 < 8 ∧ 1 ≤ w.2.1 ∧ 1 + w.2.1 + w.2.2 ≤ 64 := by decide

theorem validFormat_of_mem_presets {w : Nat × Nat × Nat} (h : w ∈ presets) {limit : Nat} (hlimit : 64 ≤ limit) :
    validFormat limit w.2.1 w.2.2 = true := by
  obtain ⟨-, he, hm⟩ := presets_bounds w h
  exact validFormat_iff.mpr (by omega)

/-- Settles O22: an id has a preset's pair or none. -/
theorem fmtPresetResult : Obligations.FmtPresetResult := by
  intro s a b
  have hnone : ∀ p ∈ [5, 6, 7], p < 8 ∧ presetWidths p = none := by decide
  refine ⟨fun w (hw : w ∈ presets) => ?_, fun p hp => ?_⟩
  · obtain ⟨hlt, -⟩ := presets_bounds w hw
    exact ⟨decodeCommand_fmtPreset hlt a b, validFormat_of_mem_presets hw,
      exec_fmtPreset_of_widths (presetWidths_of_mem_presets w hw) s⟩
  · obtain ⟨hlt, hp⟩ := hnone p hp
    exact ⟨decodeCommand_fmtPreset hlt a b, exec_fmtPreset_of_no_widths hp s⟩

/-! ## A preset is FMT.CUSTOM with its pair (40_format.md R85) -/

theorem exec_fmtPreset_eq_fmtCustom {w : Nat × Nat × Nat} (hw : w ∈ presets) {s : State}
    (h : 64 ≤ s.config.maxTotalBits) : exec (.fmtPreset w.1) s = exec (.fmtCustom w.2.1 w.2.2) s := by
  rw [exec_fmtPreset_of_widths (presetWidths_of_mem_presets w hw),
    exec_fmtCustom_of_validFormat (validFormat_of_mem_presets hw h), Int.toNat_natCast, Int.toNat_natCast]

/-- The step on a well-formed command placed next is its meaning. -/
theorem step_placeNext_encode {i : Instr} (h : i.wf = true) (s : State) : step (placeNext (encode i) s) = exec i s :=
  step_command rfl (decodingEncodedCommandGivesItBack i h)

/-- A run depends on its first state only through the first step. -/
theorem run_congr_of_step {M : Host.Core} {s s' : M.State} (k : Nat) (h : M.step s = M.step s') :
    M.run (k + 1) s = M.run (k + 1) s' := by
  rw [Host.Core.run, Host.Core.run, h]

/-- A run that begins with one of two commands of the same meaning is the run that begins with the other. -/
theorem run_placeNext_encode_congr {i j : Instr} (hi : i.wf = true) (hj : j.wf = true) {s : State} (k : Nat)
    (h : exec i s = exec j s) :
    Host.Core.run core (k + 1) (placeNext (encode i) s) = Host.Core.run core (k + 1) (placeNext (encode j) s) :=
  run_congr_of_step k ((step_placeNext_encode hi s).trans (h.trans (step_placeNext_encode hj s).symm))

/-- Settles O23: the two commands have one meaning, so the first step of the two runs leads to one state. -/
theorem presetIsItsCustomPair : Obligations.PresetIsItsCustomPair := by
  intro s n hs p hp
  change p ∈ presets.map fun w => (w.1, (w.2.1 : Int), (w.2.2 : Int)) at hp
  obtain ⟨w, hw, rfl⟩ := List.mem_map.mp hp
  obtain ⟨hlt, -⟩ := presets_bounds w hw
  have hexec := exec_fmtPreset_eq_fmtCustom hw hs
  exact ⟨hexec, run_placeNext_encode_congr (fmtPreset_wf hlt) rfl n hexec⟩

/-! ## FMT.QUERY (40_format.md R86, R87) -/

/-- Settles O24: FMT.QUERY names no slot, and its two cases are those of FMT.VALID. -/
theorem fmtQueryResult : Obligations.FmtQueryResult := by
  intro s a b
  refine ⟨decodeCommand_encode_slots (i := .fmtQuery) rfl (by simp [opcode]) a b, ?_⟩
  obtain ⟨hv, he⟩ | ⟨hv, he⟩ := exec_fmtQuery_cases s
  · exact ⟨fun _ => he, fun h => absurd (hv.symm.trans h) (by simp)⟩
  · exact ⟨fun h => absurd (hv.symm.trans h) (by simp), fun _ => he⟩

end Sys2Proof.Machine
end

section
/-! PROOFS. Field split and pack (41_bitlayout.md): what SPLIT and PACK answer, and that they are inverse. -/

namespace Sys2Proof.Machine

open Laws.EncodedHeader (opcode)

/-! ## The words of SPLIT and PACK (30_encoding.md R51, R52) -/

/-- A command that does not name slot B decodes from its words whatever slot B holds. -/
theorem decodeCommand_encode_slotB {i : Instr} (hwf : i.wf = true) (hi : opcode i ∈ [0x02, 0x03, 0x11, 0x20, 0x32])
    (b : Int) : decodeCommand ⟨(encode i).hdr, (encode i).a, b⟩ = .command i := by
  obtain ⟨ho, -, -⟩ := encodedHeader_legal i hwf
  have hslot : fromOpcode ⟨(encode i).hdr, (encode i).a, b⟩ = fromOpcode (encode i) :=
    fromOpcode_slotB _ b (encode i).b (ho ▸ hi)
  calc decodeCommand ⟨(encode i).hdr, (encode i).a, b⟩
    _ = decodeCommand (encode i) := decodeCommand_congr rfl hslot
    _ = .command i := decodingEncodedCommandGivesItBack i hwf

/-- The header of a command that uses of S, K and P at most S. -/
theorem headerWord_sign (opc : Nat) (s : Bool) :
    headerWord opc s .infinity 0 = BitVec.ofNat 32 (opc + bitOf s * 0x100) := by
  simp [headerWord, bitOf, Nat.add_comm]

/-! ## SPLIT (41_bitlayout.md R101) -/

section
variable {s : State} {bits : Int} {b : Nat}

theorem exec_split_of_layout (hv : s.fmt.valid = true) (hb : inWidth bits (totalBits s.fmt.e s.fmt.m) = some b) :
    exec (.split bits) s = answer (.fields (splitFields s.fmt.e s.fmt.m b).sign (splitFields s.fmt.e s.fmt.m b).ef
      (splitFields s.fmt.e s.fmt.m b).sf) s := by
  rw [exec, execSplit, withFormat_valid _ _ hv, hb, wellFormedOr_some]

theorem exec_split_of_no_layout (hv : s.fmt.valid = true) (hb : inWidth bits (totalBits s.fmt.e s.fmt.m) = none) :
    exec (.split bits) s = raise .malformedInput s := by
  rw [exec, execSplit, withFormat_valid _ _ hv, hb, wellFormedOr_none]

theorem exec_split_of_no_format (hv : s.fmt.valid = false) : exec (.split bits) s = raise .invalidFormat s := by
  rw [exec, execSplit, withFormat_invalid _ _ hv]

end

/-- Settles O25: SPLIT does not name slot B, and its slot A is a layout or not. -/
theorem splitResult : Obligations.SplitResult := fun _ b y =>
  ⟨decodeCommand_encode_slotB (i := .split b) rfl (by simp [opcode]) y,
    fun hv h0 hlt => exec_split_of_layout hv (inWidth_of_range h0 hlt),
    fun hv hb => exec_split_of_no_layout hv (inWidth_eq_none.mpr hb),
    exec_split_of_no_format⟩

/-! ## PACK (41_bitlayout.md R102) -/

section
variable {s : State} {sign : Bool} {ef sf : Int} {x y : Nat}

theorem exec_pack_of_fields (hv : s.fmt.valid = true) (hx : inWidth ef s.fmt.e = some x)
    (hy : inWidth sf s.fmt.m = some y) :
    exec (.pack sign ef sf) s = answer (.bits (packFields s.fmt.e s.fmt.m (bitOf sign) x y)) s := by
  rw [exec, execPack, withFormat_valid _ _ hv, hx, hy, wellFormedOr_some, wellFormedOr_some]

theorem exec_pack_of_no_fields (hv : s.fmt.valid = true) (h : inWidth ef s.fmt.e = none ∨ inWidth sf s.fmt.m = none) :
    exec (.pack sign ef sf) s = raise .malformedInput s := by
  rw [exec, execPack, withFormat_valid _ _ hv]
  cases hx : inWidth ef s.fmt.e with
  | none => rfl
  | some x =>
    have hy : inWidth sf s.fmt.m = none := h.resolve_left (by simp [hx])
    rw [hy]; rfl

theorem exec_pack_of_no_format (hv : s.fmt.valid = false) : exec (.pack sign ef sf) s = raise .invalidFormat s := by
  rw [exec, execPack, withFormat_invalid _ _ hv]

end

theorem decodeCommand_pack (sign : Bool) (ef sf : Int) :
    decodeCommand ⟨BitVec.ofNat 32 (0x00000012 + bitOf sign * 0x100), ef, sf⟩ = .command (.pack sign ef sf) := by
  rw [← headerWord_sign]
  exact decodingEncodedCommandGivesItBack (.pack sign ef sf) rfl

/-- Settles O26: both slots are fields in range, or one is not. -/
theorem packResult : Obligations.PackResult := fun _ sign ef sf =>
  ⟨decodeCommand_pack sign ef sf,
    fun hv hx hxlt hy hylt => exec_pack_of_fields hv (inWidth_of_range hx hxlt) (inWidth_of_range hy hylt),
    fun hv h => exec_pack_of_no_fields hv ((or_assoc.mpr h).imp inWidth_eq_none.mpr inWidth_eq_none.mpr),
    exec_pack_of_no_format⟩

/-! ## Split and pack are inverse (41_bitlayout.md R103) -/

/-- The low `w` bits and the bits above them, of a number written as the two. -/
theorem mul_two_pow_add_div_mod {w y : Nat} (x : Nat) (h : y < 2 ^ w) :
    (x * 2 ^ w + y) / 2 ^ w = x ∧ (x * 2 ^ w + y) % 2 ^ w = y :=
  (Nat.div_mod_unique (Nat.two_pow_pos w)).mpr ⟨by ring, h⟩

theorem bitOf_lt_two (b : Bool) : bitOf b < 2 := by cases b <;> decide

section
variable (e m : Nat)

/-- The layout field by field: the significand below the exponent, and the exponent below the sign. -/
theorem packFields_nested (sign ef sf : Nat) : packFields e m sign ef sf = (sign * 2 ^ e + ef) * 2 ^ m + sf := by
  rw [packFields, two_pow_add]; ring

/-- The sign is what stands above the exponent once the significand is gone. -/
theorem splitFields_nested (b : Nat) : splitFields e m b = ⟨b / 2 ^ m / 2 ^ e, b / 2 ^ m % 2 ^ e, b % 2 ^ m⟩ := by
  rw [splitFields, two_pow_add, Nat.mul_comm, Nat.div_div_eq_div_mul]

/-- One bit above the exponent and the significand. -/
theorem two_pow_totalBits : 2 ^ totalBits e m = 2 * 2 ^ (e + m) := by
  rw [totalBits, two_pow_split, two_pow_add]

theorem packFields_splitFields (b : Nat) :
    packFields e m (splitFields e m b).sign (splitFields e m b).ef (splitFields e m b).sf = b := by
  rw [packFields_nested, splitFields_nested]
  simp only [Nat.div_add_mod']

theorem splitFields_ef_lt (b : Nat) : (splitFields e m b).ef < 2 ^ e := Nat.mod_lt _ (Nat.two_pow_pos e)

theorem splitFields_sf_lt (b : Nat) : (splitFields e m b).sf < 2 ^ m := Nat.mod_lt _ (Nat.two_pow_pos m)

variable {e m}

theorem splitFields_sign_lt {b : Nat} (hb : b < 2 ^ totalBits e m) : (splitFields e m b).sign < 2 :=
  Nat.div_lt_of_lt_mul (by rwa [two_pow_totalBits, Nat.mul_comm] at hb)

theorem splitFields_packFields {ef sf : Nat} (sign : Nat) (hef : ef < 2 ^ e) (hsf : sf < 2 ^ m) :
    splitFields e m (packFields e m sign ef sf) = ⟨sign, ef, sf⟩ := by
  obtain ⟨hhigh, hlow⟩ := mul_two_pow_add_div_mod (sign * 2 ^ e + ef) hsf
  obtain ⟨hsign, hexp⟩ := mul_two_pow_add_div_mod sign hef
  rw [packFields_nested, splitFields_nested, hhigh, hlow, hsign, hexp]

theorem packFields_lt {sign ef sf : Nat} (hs : sign < 2) (hef : ef < 2 ^ e) (hsf : sf < 2 ^ m) :
    packFields e m sign ef sf < 2 ^ totalBits e m := by
  rw [packFields, two_pow_totalBits, Nat.add_assoc, Nat.mul_comm sign]
  exact Nat.mul_add_lt_mul_of_lt_of_lt hs (fields_lt hef hsf)

/-- Fields in range pack to `b` exactly when `b` is a layout that splits into them. -/
theorem packFields_eq_iff_splitFields_eq {sign ef sf b : Nat} (hs : sign < 2) :
    (ef < 2 ^ e ∧ sf < 2 ^ m) ∧ packFields e m sign ef sf = b ↔
      b < 2 ^ totalBits e m ∧ splitFields e m b = ⟨sign, ef, sf⟩ := by
  constructor
  · rintro ⟨⟨hef, hsf⟩, rfl⟩
    exact ⟨packFields_lt hs hef hsf, splitFields_packFields sign hef hsf⟩
  · rintro ⟨-, h⟩
    have hef := splitFields_ef_lt e m b
    have hsf := splitFields_sf_lt e m b
    have hpack := packFields_splitFields e m b
    rw [h] at hef hsf hpack
    exact ⟨⟨hef, hsf⟩, hpack⟩

end

/-! ### PACK and SPLIT as answers -/

/-- Two responses to one state differ unless status and payload agree. -/
theorem respond_inj {st st' : Status} {p p' : Payload} {s : State} :
    respond st p s = respond st' p' s ↔ st = st' ∧ p = p' := by
  simp [respond]

theorem answer_inj {p p' : Payload} {s : State} : answer p s = answer p' s ↔ p = p' := by
  simp [answer, respond_inj]

/-- An error is no answer. -/
theorem raise_ne_answer {st : Status} (h : st ≠ .ok) (p : Payload) (s : State) : raise st s ≠ answer p s :=
  fun heq => h (respond_inj.mp heq).1

section
variable {s : State} {ef sf b : Nat}

theorem exec_pack_eq_answer_iff {sign : Bool} : exec (.pack sign ef sf) s = answer (.bits b) s ↔
    s.fmt.valid = true ∧ (ef < 2 ^ s.fmt.e ∧ sf < 2 ^ s.fmt.m) ∧ packFields s.fmt.e s.fmt.m (bitOf sign) ef sf = b := by
  cases hv : s.fmt.valid with
  | false => simp [exec_pack_of_no_format hv, raise_ne_answer]
  | true =>
    by_cases hr : ef < 2 ^ s.fmt.e ∧ sf < 2 ^ s.fmt.m
    · obtain ⟨hef, hsf⟩ := hr
      rw [exec_pack_of_fields hv (inWidth_eq_some.mpr ⟨rfl, hef⟩) (inWidth_eq_some.mpr ⟨rfl, hsf⟩)]
      simp [answer_inj, hef, hsf]
    · rw [exec_pack_of_no_fields hv (by simpa [imp_iff_not_or] using hr)]
      simp [raise_ne_answer, hr]

theorem exec_split_eq_answer_iff {sign : Nat} : exec (.split b) s = answer (.fields sign ef sf) s ↔
    s.fmt.valid = true ∧ b < 2 ^ totalBits s.fmt.e s.fmt.m ∧ splitFields s.fmt.e s.fmt.m b = ⟨sign, ef, sf⟩ := by
  cases hv : s.fmt.valid with
  | false => simp [exec_split_of_no_format hv, raise_ne_answer]
  | true =>
    by_cases hb : b < 2 ^ totalBits s.fmt.e s.fmt.m
    · rw [exec_split_of_layout hv (inWidth_eq_some.mpr ⟨rfl, hb⟩)]
      simp [answer_inj, hb, splitFields]
    · rw [exec_split_of_no_layout hv (by simpa using hb)]
      simp [raise_ne_answer, hb]

end

/-- Settles O27: on layouts and fields, then on the two commands, which answer so exactly with a format set
and the operands in range. -/
theorem splitAndPackAreInverse : Obligations.SplitAndPackAreInverse := by
  refine ⟨fun e m b hb => ?_, fun e m sign ef sf hs hef hsf => ?_, fun s sign ef sf b => ?_⟩
  · exact ⟨splitFields_sign_lt hb, splitFields_ef_lt e m b, splitFields_sf_lt e m b, packFields_splitFields e m b⟩
  · exact ⟨packFields_lt hs hef hsf, splitFields_packFields sign hef hsf⟩
  · exact exec_pack_eq_answer_iff.trans
      ((and_congr_right' (packFields_eq_iff_splitFields_eq (bitOf_lt_two sign))).trans exec_split_eq_answer_iff.symm)

end Sys2Proof.Machine
end

section
/-! PROOFS. The classifier (42_classifier.md): the condition of each class, what CLASSIFY answers, and how many layouts of
a format have each class. -/

namespace Sys2Proof.Machine

/-! ## The classification of fields (42_classifier.md R121) -/

/-- What the classification can give, with the tests that lead there. -/
theorem classOf_cases (e ef sf : Nat) :
    (ef = 0 ∧ sf = 0 ∧ classOf e ef sf = .zero) ∨
    (ef = 0 ∧ sf ≠ 0 ∧ classOf e ef sf = .subnormal) ∨
    (ef ≠ 0 ∧ ef < maxExponentField e ∧ classOf e ef sf = .normal) ∨
    (ef ≠ 0 ∧ maxExponentField e ≤ ef ∧ sf = 0 ∧ classOf e ef sf = .infinity) ∨
    (ef ≠ 0 ∧ maxExponentField e ≤ ef ∧ sf ≠ 0 ∧ classOf e ef sf = .nan) := by
  unfold classOf
  split_ifs <;> simp <;> omega

/-- Settles O28: in range the exponent field is at most MAXEF, so what is neither 0 nor below MAXEF is MAXEF, and MAXEF is
not 0 since `E >= 1`. -/
theorem classesPartitionTheFields : Obligations.ClassesPartitionTheFields := by
  intro e m ef sf he hef _
  have hmax : maxExponentField e = 2 ^ e - 1 := rfl
  have htwo : 2 ≤ 2 ^ e := Nat.le_self_pow (by omega) 2
  obtain ⟨hx, hy, hc⟩ | ⟨hx, hy, hc⟩ | ⟨hx, hlt, hc⟩ | ⟨hx, hge, hy, hc⟩ | ⟨hx, hge, hy, hc⟩ := classOf_cases e ef sf <;>
    simp only [hc, reduceCtorEq, true_iff, false_iff] <;> omega

/-! ## CLASSIFY (42_classifier.md R120, R122) -/

/-- Either of two operands out of its range is MalformedInput. -/
theorem wellFormedOr_of_either_none {x y : Option Nat} (k : Nat → Nat → State → Result) (s : State)
    (h : x = none ∨ y = none) :
    wellFormedOr x (fun a => wellFormedOr y (k a)) s = raise .malformedInput s := by
  obtain rfl | rfl := h
  · rfl
  · cases x <;> rfl

/-- The code of the class, by the tests of 42_classifier.md R121 on integers. -/
theorem classCode_classOf (e x y : Nat) : classCode (classOf e x y) =
    if (x : Int) = 0 ∧ (y : Int) = 0 then 0 else if (x : Int) = 0 then 1 else if (x : Int) < Reference.maxef e then 2
      else if (y : Int) = 0 then 3 else 4 := by
  rw [← maxExponentField_cast]
  obtain ⟨hx, hy, hc⟩ | ⟨hx, hy, hc⟩ | ⟨hx, hlt, hc⟩ | ⟨hx, hge, hy, hc⟩ | ⟨hx, hge, hy, hc⟩ := classOf_cases e x y
  · rw [hc]; simp [classCode, hx, hy]
  · rw [hc]; simp [classCode, hx, hy]
  · rw [hc]; simp [classCode, hx, hlt]
  · rw [hc]; simp [classCode, hx, hge.not_gt, hy]
  · rw [hc]; simp [classCode, hx, hge.not_gt, hy]

section
variable {s : State} {sign : Bool} {ef sf : Int} {x y : Nat}

theorem exec_classify_of_fields (hv : s.fmt.valid = true) (hx : inWidth ef s.fmt.e = some x)
    (hy : inWidth sf s.fmt.m = some y) :
    exec (.classify sign ef sf) s = answer (.cls (classCode (classOf s.fmt.e x y))) s := by
  rw [exec, execClassify, withFormat_valid _ _ hv, hx, hy, wellFormedOr_some, wellFormedOr_some]

theorem exec_classify_of_no_fields (hv : s.fmt.valid = true)
    (h : inWidth ef s.fmt.e = none ∨ inWidth sf s.fmt.m = none) :
    exec (.classify sign ef sf) s = raise .malformedInput s := by
  rw [exec, execClassify, withFormat_valid _ _ hv, wellFormedOr_of_either_none _ _ h]

theorem exec_classify_of_no_format (hv : s.fmt.valid = false) :
    exec (.classify sign ef sf) s = raise .invalidFormat s := by
  rw [exec, execClassify, withFormat_invalid _ _ hv]

end

theorem decodeCommand_classify (sign : Bool) (ef sf : Int) :
    decodeCommand ⟨BitVec.ofNat 32 (0x00000010 + bitOf sign * 0x100), ef, sf⟩ = .command (.classify sign ef sf) := by
  rw [← headerWord_sign]
  exact decodingEncodedCommandGivesItBack (.classify sign ef sf) rfl

/-- Settles O29: both slots are fields in range, and the answer is the code of their class, or one is not. -/
theorem classifyResult : Obligations.ClassifyResult := by
  intro s sign ef sf
  refine ⟨decodeCommand_classify sign ef sf, fun hv hef heflt hsf hsflt => ?_, fun hv h => ?_,
    exec_classify_of_no_format⟩
  · rw [exec_classify_of_fields hv (inWidth_of_range hef heflt) (inWidth_of_range hsf hsflt), classCode_classOf,
      Int.toNat_of_nonneg hef, Int.toNat_of_nonneg hsf]
    rfl
  · exact exec_classify_of_no_fields hv ((or_assoc.mpr h).imp inWidth_eq_none.mpr inWidth_eq_none.mpr)

/-! ## Counting the layouts of each class (42_classifier.md R124) -/

/-- The exponent fields of a class (42_classifier.md R121). -/
def exponentFieldsOf (e : Nat) : Class → Finset Nat
  | .zero | .subnormal => {0}
  | .normal => Finset.Ico 1 (maxExponentField e)
  | .infinity | .nan => {maxExponentField e}

/-- The significand fields of a class (42_classifier.md R121). -/
def significandFieldsOf (m : Nat) : Class → Finset Nat
  | .zero | .infinity => {0}
  | .subnormal | .nan => Finset.Ico 1 (2 ^ m)
  | .normal => Finset.range (2 ^ m)

section
variable {e m : Nat}

/-- Every class is a rectangle of exponent and significand fields. -/
theorem classOf_eq_iff_mem {ef sf : Nat} (he : 1 ≤ e) (hef : ef < 2 ^ e) (hsf : sf < 2 ^ m) (c : Class) :
    classOf e ef sf = c ↔ ef ∈ exponentFieldsOf e c ∧ sf ∈ significandFieldsOf m c := by
  obtain ⟨hzero, hsub, hnorm, hinf, hnan⟩ := classesPartitionTheFields e m ef sf he hef hsf
  cases c with
  | zero => simp [hzero, exponentFieldsOf, significandFieldsOf]
  | subnormal => simp [hsub, exponentFieldsOf, significandFieldsOf, hsf, Nat.one_le_iff_ne_zero]
  | normal => simp [hnorm, exponentFieldsOf, significandFieldsOf, hsf, maxExponentField, Nat.succ_le_iff]
  | infinity => simp [hinf, exponentFieldsOf, significandFieldsOf, maxExponentField]
  | nan => simp [hnan, exponentFieldsOf, significandFieldsOf, hsf, maxExponentField, Nat.one_le_iff_ne_zero]

theorem exponentFieldsOf_lt {ef : Nat} {c : Class} (h : ef ∈ exponentFieldsOf e c) : ef < 2 ^ e := by
  have hpos := Nat.two_pow_pos e
  cases c <;> simp [exponentFieldsOf, maxExponentField] at h <;> omega

theorem significandFieldsOf_lt {sf : Nat} {c : Class} (h : sf ∈ significandFieldsOf m c) : sf < 2 ^ m := by
  have hpos := Nat.two_pow_pos m
  cases c <;> simp [significandFieldsOf] at h <;> omega

/-- A rectangle of fields in range holds the fields of twice as many layouts, one for each sign: a layout is its fields. -/
theorem card_layouts_with_fields {A B : Finset Nat} (hA : ∀ ef ∈ A, ef < 2 ^ e) (hB : ∀ sf ∈ B, sf < 2 ^ m) :
    ((Finset.range (2 ^ totalBits e m)).filter fun b => (splitFields e m b).ef ∈ A ∧ (splitFields e m b).sf ∈ B).card =
      2 * A.card * B.card := by
  rw [Nat.mul_assoc, ← Finset.card_product, ← Finset.card_range 2, ← Finset.card_product, Finset.card_range]
  refine Finset.card_nbij' (fun b => ((splitFields e m b).sign, (splitFields e m b).ef, (splitFields e m b).sf))
    (fun f => packFields e m f.1 f.2.1 f.2.2) ?_ ?_ ?_ ?_
  · intro b hb
    simp only [Finset.mem_coe, Finset.mem_filter, Finset.mem_product, Finset.mem_range] at hb ⊢
    exact ⟨splitFields_sign_lt hb.1, hb.2⟩
  · rintro ⟨sign, ef, sf⟩ h
    simp only [Finset.mem_coe, Finset.mem_filter, Finset.mem_product, Finset.mem_range] at h ⊢
    obtain ⟨hs, hef, hsf⟩ := h
    rw [splitFields_packFields sign (hA ef hef) (hB sf hsf)]
    exact ⟨packFields_lt hs (hA ef hef) (hB sf hsf), hef, hsf⟩
  · exact fun b _ => packFields_splitFields e m b
  · rintro ⟨sign, ef, sf⟩ h
    simp only [Finset.mem_coe, Finset.mem_product] at h
    obtain ⟨-, hef, hsf⟩ := h
    simp only [splitFields_packFields sign (hA ef hef) (hB sf hsf)]

/-- The layouts of a class are those whose fields lie in its rectangle. -/
theorem length_layouts_of_class (he : 1 ≤ e) (c : Class) :
    ((List.range (2 ^ totalBits e m)).filter fun b =>
      classOf e (splitFields e m b).ef (splitFields e m b).sf = c).length =
      2 * (exponentFieldsOf e c).card * (significandFieldsOf m c).card := by
  rw [← card_layouts_with_fields (fun _ => exponentFieldsOf_lt (c := c)) (fun _ => significandFieldsOf_lt (c := c))]
  simp only [← classOf_eq_iff_mem he (splitFields_ef_lt e m _) (splitFields_sf_lt e m _)]
  rfl

end

/-- Settles O30: the two signs, times the exponent fields, times the significand fields of each class. -/
theorem classCountsOfAFormat : Obligations.ClassCountsOfAFormat := by
  intro e m he count
  have hcount (c : Class) : count c = 2 * (exponentFieldsOf e c).card * (significandFieldsOf m c).card :=
    length_layouts_of_class he c
  have hnormal : maxExponentField e - 1 = 2 ^ e - 2 := by simp [maxExponentField, Nat.sub_sub]
  refine ⟨?_, ?_, ?_, ?_, ?_⟩ <;> simp [hcount, exponentFieldsOf, significandFieldsOf, hnormal]

end Sys2Proof.Machine
end

section
/-! PROOFS. The decoder (43_decoder.md): the reduced form of a value, what DECODE answers, and the order of the finite
values. -/

namespace Sys2Proof.Machine

open Laws.EncodedHeader (opcode)

/-! ## The reduced form (43_decoder.md R132) -/

theorem reduceDyadic_zero (sign : Nat) (k : Int) : reduceDyadic sign 0 k = (0, 1) := rfl

/-- A positive significand is an odd number times a power of two, and the reduction moves that power to the exponent: the
exponent `j` it leaves makes a factor of the numerator or the denominator. -/
theorem reduceDyadic_cases (sign : Nat) {g : Nat} (k : Int) (hg : g ≠ 0) : ∃ (odd t : Nat) (j : Int),
    odd % 2 = 1 ∧ g = odd * 2 ^ t ∧ j = k + t ∧
    (0 ≤ j ∧ reduceDyadic sign g k = (signed sign (odd * 2 ^ j.toNat), 1) ∨
      j < 0 ∧ reduceDyadic sign g k = (signed sign odd, 2 ^ (-j).toNat)) := by
  obtain ⟨hdvd, hodd⟩ := twosDividing_spec _ g hg (lt_two_pow_log2_succ g)
  refine ⟨_, _, _, hodd, (Nat.div_mul_cancel hdvd).symm, rfl, ?_⟩
  simp only [reduceDyadic, if_neg hg]
  split_ifs with hj
  · exact .inl ⟨hj, rfl⟩
  · exact .inr ⟨not_le.mp hj, rfl⟩

/-- An odd numerator over a power of two is in lowest terms, and so is anything over 1. -/
theorem reducedTo_reduceDyadic {sign : Nat} (g : Nat) (k : Int) (hs : sign < 2) :
    Reference.ReducedTo ((-1) ^ sign * (g : ℚ) * Reference.pow2 k) (reduceDyadic sign g k).1
      (reduceDyadic sign g k).2 := by
  by_cases hg : g = 0
  · subst hg
    exact ⟨by simp [reduceDyadic_zero], ⟨0, rfl⟩, Nat.coprime_one_right _⟩
  obtain ⟨odd, t, j, hodd, hgt, hj, h⟩ := reduceDyadic_cases sign k hg
  have hvalue : (-1) ^ sign * (g : ℚ) * Reference.pow2 k = (-1) ^ sign * odd * Reference.pow2 j := by
    rw [hgt, hj, pow2_add, pow2_natCast]; push_cast; ring
  rw [hvalue]
  obtain ⟨hj0, h⟩ | ⟨hj0, h⟩ := h
  · refine h ▸ ⟨?_, ⟨0, rfl⟩, Nat.coprime_one_right _⟩
    rw [signed_cast _ hs, pow2_of_nonneg hj0]; push_cast; ring
  · refine h ▸ ⟨?_, ⟨_, rfl⟩, ?_⟩
    · rw [signed_cast _ hs, pow2_of_neg hj0]; push_cast; rfl
    · rw [signed_natAbs]
      exact (Nat.coprime_two_right.mpr (Nat.odd_iff.mpr hodd)).pow_right _

/-- Settles O31: the reduction takes every factor of two out of the significand. -/
theorem reducedFormIsExactAndInLowestTerms : Obligations.ReducedFormIsExactAndInLowestTerms :=
  fun sign g k hs => ⟨reducedTo_reduceDyadic g k hs, fun hg => hg ▸ reduceDyadic_zero sign k⟩

/-! ## DECODE (43_decoder.md R130 to R134) -/

theorem significandOf_cast (m ef sf : Nat) :
    (significandOf m ef sf : ℚ) = if ef = 0 then (sf : ℚ) else (sf : ℚ) + 2 ^ m := by
  unfold significandOf
  push_cast
  rfl

/-- The value of fields is the reduced form of the formula of 43_decoder.md R131. -/
theorem reducedTo_valueOf (e m : Nat) {f : RawFields} (hs : f.sign < 2) :
    Reference.ReducedTo (Reference.value e m f.sign f.ef f.sf) (valueOf e m f).1 (valueOf e m f).2 := by
  rw [Reference.value, ← significandOf_cast, ← scaleExponent_eq]
  exact reducedTo_reduceDyadic _ _ hs

/-- The classes with a value are those of the exponent fields below MAXEF. -/
theorem finite_classOf {e : Nat} (ef sf : Nat) (he : 1 ≤ e) :
    finite (classOf e ef sf) = true ↔ ef < maxExponentField e := by
  have hmax : maxExponentField e = 2 ^ e - 1 := rfl
  have htwo : 2 ≤ 2 ^ e := Nat.le_self_pow (by omega) 2
  obtain ⟨hx, -, hc⟩ | ⟨hx, -, hc⟩ | ⟨-, hlt, hc⟩ | ⟨-, hge, -, hc⟩ | ⟨-, hge, -, hc⟩ := classOf_cases e ef sf <;>
    simp only [hc, finite, Bool.false_eq_true, true_iff, false_iff] <;> omega

/-- The code of the class, by the tests of 42_classifier.md R121 on naturals. -/
theorem classCode_classOf_nat (e ef sf : Nat) : classCode (classOf e ef sf) =
    if ef = 0 ∧ sf = 0 then 0 else if ef = 0 then 1 else if ef < maxExponentField e then 2
      else if sf = 0 then 3 else 4 := by
  rw [classCode_classOf, ← maxExponentField_cast]
  norm_cast

section
variable {s : State} {bits : Int} {b : Nat}

theorem exec_decode_of_layout (hv : s.fmt.valid = true) (hb : inWidth bits (totalBits s.fmt.e s.fmt.m) = some b) :
    exec (.decode bits) s = answer (decodeLayout s.fmt.e s.fmt.m b) s := by
  rw [exec, execDecode, withFormat_valid _ _ hv, hb, wellFormedOr_some]

theorem exec_decode_of_no_layout (hv : s.fmt.valid = true) (hb : inWidth bits (totalBits s.fmt.e s.fmt.m) = none) :
    exec (.decode bits) s = raise .malformedInput s := by
  rw [exec, execDecode, withFormat_valid _ _ hv, hb, wellFormedOr_none]

theorem exec_decode_of_no_format (hv : s.fmt.valid = false) : exec (.decode bits) s = raise .invalidFormat s := by
  rw [exec, execDecode, withFormat_invalid _ _ hv]

end

/-- The value part of the payload of DECODE (43_decoder.md R133). -/
def decodedValue (e m : Nat) (f : RawFields) : Option (Int × Nat) :=
  if finite (classOf e f.ef f.sf) then some (valueOf e m f) else none

theorem decodeLayout_eq (e m b : Nat) : decodeLayout e m b =
    .decoded (classCode (classOf e (splitFields e m b).ef (splitFields e m b).sf)) (splitFields e m b).sign
      (splitFields e m b).ef (splitFields e m b).sf (decodedValue e m (splitFields e m b)) := rfl

section
variable {e : Nat} (m : Nat) {f : RawFields}

theorem decodedValue_of_finite (he : 1 ≤ e) (h : f.ef < maxExponentField e) :
    decodedValue e m f = some (valueOf e m f) := by
  simp [decodedValue, finite_classOf _ _ he, h]

theorem decodedValue_of_nonfinite (he : 1 ≤ e) (h : f.ef = maxExponentField e) : decodedValue e m f = none := by
  simp [decodedValue, finite_classOf _ _ he, h]

end

/-- Settles O32: a layout is answered with its decoded payload, whose value part is there below MAXEF; any other integer
is refused. -/
theorem decodeResult : Obligations.DecodeResult := by
  intro s b y
  refine ⟨decodeCommand_encode_slotB (i := .decode b) rfl (by simp [opcode]) y, fun hv he h0 hlt => ?_,
    fun hv hb => exec_decode_of_no_layout hv (inWidth_eq_none.mpr hb), exec_decode_of_no_format⟩
  rintro _ _ _ rfl rfl rfl
  have hlayout : inWidth b (totalBits s.fmt.e s.fmt.m) = some b.toNat := inWidth_of_range h0 hlt
  have hsign := splitFields_sign_lt (inWidth_eq_some.mp hlayout).2
  refine ⟨decodedValue s.fmt.e s.fmt.m (splitFields s.fmt.e s.fmt.m b.toNat), ?_, fun hef => ?_, fun hef => ?_⟩
  · rw [exec_decode_of_layout hv hlayout, decodeLayout_eq, classCode_classOf_nat]
    rfl
  · exact decodedValue_of_nonfinite _ he hef
  · exact ⟨_, _, decodedValue_of_finite _ he hef, reducedTo_valueOf _ _ hsign⟩

/-! ## The order of the finite values (43_decoder.md R136) -/

/-- Exponent field 0 has the scale of 1, and from 1 on each exponent field doubles the one before. -/
theorem scaleExp_succ (e m ef : Nat) :
    Reference.scaleExp e m (ef + 1) = Reference.scaleExp e m ef + if ef = 0 then 0 else 1 := by
  unfold Reference.scaleExp
  split_ifs <;> push_cast <;> omega

/-- One more in the significand field is one unit in the last place. -/
theorem value_succ (e m ef sf : Nat) :
    Reference.value e m 0 ef (sf + 1) = Reference.value e m 0 ef sf + Reference.pow2 (Reference.scaleExp e m ef) := by
  unfold Reference.value
  split_ifs <;> push_cast <;> ring

/-- A significand field that carries out stands for the least significand of the next exponent field, where the implicit
bit appears (from exponent field 0) or doubles its weight. -/
theorem value_carry (e m ef : Nat) : Reference.value e m 0 ef (2 ^ m) = Reference.value e m 0 (ef + 1) 0 := by
  unfold Reference.value
  rw [scaleExp_succ]
  by_cases h : ef = 0
  · simp [h]
  · simp only [if_neg h, if_neg (Nat.succ_ne_zero ef), pow2_succ]; push_cast; ring

/-- A pattern has the value of its fields, also where the significand field has just carried out. -/
theorem positiveValue_mul_add (e : Nat) {m sf : Nat} (ef : Nat) (hsf : sf ≤ 2 ^ m) :
    Reference.positiveValue e m (ef * 2 ^ m + sf) = Reference.value e m 0 ef sf := by
  unfold Reference.positiveValue
  obtain hlt | rfl := hsf.lt_or_eq
  · obtain ⟨hdiv, hmod⟩ := mul_two_pow_add_div_mod ef hlt
    rw [hdiv, hmod]
  · rw [← Nat.succ_mul, Nat.mul_div_cancel _ (Nat.two_pow_pos m), Nat.mul_mod_left, value_carry]

/-- Consecutive patterns differ by one unit in the last place of the lower one. -/
theorem positiveValue_succ (e m b : Nat) : Reference.positiveValue e m (b + 1) =
    Reference.positiveValue e m b + Reference.pow2 (Reference.scaleExp e m (b / 2 ^ m)) := by
  have hsf : b % 2 ^ m + 1 ≤ 2 ^ m := Nat.mod_lt b (Nat.two_pow_pos m)
  calc Reference.positiveValue e m (b + 1)
    _ = Reference.positiveValue e m (b / 2 ^ m * 2 ^ m + (b % 2 ^ m + 1)) := by rw [← Nat.add_assoc, Nat.div_add_mod']
    _ = Reference.value e m 0 (b / 2 ^ m) (b % 2 ^ m + 1) := positiveValue_mul_add e _ hsf
    _ = Reference.positiveValue e m b + Reference.pow2 (Reference.scaleExp e m (b / 2 ^ m)) := value_succ e m _ _

theorem positiveValue_strictMono (e m : Nat) : StrictMono (Reference.positiveValue e m) :=
  strictMono_nat_of_lt_succ fun b => by
    rw [positiveValue_succ]
    exact lt_add_of_pos_right _ (pow2_pos _)

/-- The decoded value of a layout with sign bit 0 is the value of its pattern. -/
theorem valueOf_splitFields {e m b : Nat} (hb : b < 2 ^ (e + m)) :
    ((valueOf e m (splitFields e m b)).1 : ℚ) / ((valueOf e m (splitFields e m b)).2 : ℚ) =
      Reference.positiveValue e m b := by
  have hfields : splitFields e m b = ⟨0, b / 2 ^ m, b % 2 ^ m⟩ := by
    have hef : b / 2 ^ m < 2 ^ e := Nat.div_lt_of_lt_mul (by rwa [Nat.mul_comm, ← two_pow_add])
    rw [splitFields, Nat.div_eq_of_lt hb, Nat.mod_eq_of_lt hef]
  rw [hfields]
  exact (reducedTo_valueOf e m Nat.two_pos).1

/-- Settles O33: the finite positive layouts have sign bit 0, and their patterns' values increase by one unit. -/
theorem finiteValuesIncreaseByOneUlp : Obligations.FiniteValuesIncreaseByOneUlp := by
  intro e m _ v
  have hv {b : Nat} (hb : b < (2 ^ e - 1) * 2 ^ m) : v b = Reference.positiveValue e m b :=
    valueOf_splitFields (hb.trans_le (by rw [two_pow_add]; exact Nat.mul_le_mul_right _ (Nat.sub_le _ _)))
  refine ⟨fun b b' hlt hb' => ?_, fun b hb => ?_, rfl, rfl⟩
  · rw [hv (hlt.trans hb'), hv hb']
    exact positiveValue_strictMono e m hlt
  · rw [hv hb, hv (Nat.lt_of_succ_lt hb), positiveValue_succ, add_sub_cancel_left]

end Sys2Proof.Machine
end

section
/-! PROOFS. The rounding core of the encoder (44_encoder.md R151 to R153): the binary exponent, round to nearest with ties
to even, and the encoder on fractions of naturals as the spec's function on exact rationals. -/

namespace Sys2Proof.Machine

/-! ## The binary exponent (44_encoder.md R151) -/

section
variable {q : Frac} (hn : 1 ≤ q.num) (hd : 1 ≤ q.den)
include hn hd

/-- The bit lengths of the two parts leave the magnitude between two powers of two a factor of 4 apart. -/
theorem magnitude_bounds_of_bitLength :
    Reference.pow2 ((bitLength q.num : ℤ) - bitLength q.den - 1) ≤ Reference.magnitude q ∧
      Reference.magnitude q < Reference.pow2 ((bitLength q.num : ℤ) - bitLength q.den + 1) := by
  obtain ⟨hnlo, hnhi⟩ := bitLength_bounds hn
  obtain ⟨hdlo, hdhi⟩ := bitLength_bounds hd
  have hden : (0 : ℚ) < q.den := by exact_mod_cast hd
  unfold Reference.magnitude
  constructor
  · calc Reference.pow2 ((bitLength q.num : ℤ) - bitLength q.den - 1)
      _ = 2 ^ bitLength q.num / 2 / 2 ^ bitLength q.den := by
        rw [pow2_sub, pow2_sub, pow2_natCast, pow2_natCast, pow2_one, div_right_comm]
      _ ≤ q.num / q.den := div_le_div₀ (by positivity) hnlo hden hdhi.le
  · calc (q.num / q.den : ℚ)
      _ < 2 ^ bitLength q.num / (2 ^ bitLength q.den / 2) := div_lt_div₀ hnhi hdlo (by positivity) (by positivity)
      _ = Reference.pow2 ((bitLength q.num : ℤ) - bitLength q.den + 1) := by
        rw [pow2_add, pow2_sub, pow2_natCast, pow2_natCast, pow2_one, div_div_eq_mul_div, mul_div_right_comm]

theorem floorLog2_bracket :
    Reference.pow2 q.floorLog2 ≤ Reference.magnitude q ∧ Reference.magnitude q < Reference.pow2 (q.floorLog2 + 1) := by
  obtain ⟨hlo, hhi⟩ := magnitude_bounds_of_bitLength hn hd
  simp only [Frac.floorLog2, atLeastPow2_iff hd]
  split_ifs with h
  · exact ⟨h, hhi⟩
  · exact ⟨hlo, by rw [sub_add_cancel]; exact not_le.mp h⟩

theorem floorLog2_unique {k : ℤ} (hlo : Reference.pow2 k ≤ Reference.magnitude q)
    (hhi : Reference.magnitude q < Reference.pow2 (k + 1)) : q.floorLog2 = k :=
  pow2_bracket_unique (floorLog2_bracket hn hd).1 (floorLog2_bracket hn hd).2 hlo hhi

end

/-- A positive rational lies between the powers of two of its integer logarithm. -/
theorem log_bracket {r : ℚ} (hr : 0 < r) :
    Reference.pow2 (Int.log 2 r) ≤ r ∧ r < Reference.pow2 (Int.log 2 r + 1) :=
  ⟨Int.zpow_log_le_self Nat.one_lt_two hr, Int.lt_zpow_succ_log_self Nat.one_lt_two r⟩

theorem floorLog2_eq_log {q : Frac} (hn : 1 ≤ q.num) (hd : 1 ≤ q.den) :
    q.floorLog2 = Int.log 2 (Reference.magnitude q) := by
  obtain ⟨hlo, hhi⟩ := log_bracket (magnitude_pos hn hd)
  exact floorLog2_unique hn hd hlo hhi

/-- Settles O34: the bracket, which one integer alone has, and the two outcomes of the comparison with `2^e0`. -/
theorem binaryExponentIsFloorLog2 : Obligations.BinaryExponentIsFloorLog2 := by
  intro q hn hd
  obtain ⟨hlo, hhi⟩ := floorLog2_bracket hn hd
  refine ⟨hlo, hhi, fun k h1 h2 => (floorLog2_unique hn hd h1 h2).symm, ?_⟩
  simp only [Frac.floorLog2, atLeastPow2_iff hd, ← bitLength_eq_size]
  exact ⟨fun h => if_pos h, fun h => if_neg (not_le.mpr h)⟩

/-! ## Round to nearest, ties to even (44_encoder.md R152) -/

/-- Twice the remainder against the denominator is the fractional part against one half. -/
theorem roundNearestEven_cast {q : Frac} (hd : 1 ≤ q.den) :
    (q.roundNearestEven : ℤ) = Reference.rne (Reference.magnitude q) := by
  have hden : (0 : ℚ) < q.den := by exact_mod_cast hd
  have hfract : Reference.magnitude q - ⌊Reference.magnitude q⌋ = ((q.num % q.den : ℕ) : ℚ) / q.den :=
    eq_div_of_mul_eq hden.ne' (mod_eq_fract_magnitude hd).symm
  have hlt : 2 * (q.num % q.den) < q.den ↔ Reference.magnitude q - ⌊Reference.magnitude q⌋ < 1 / 2 := by
    rw [hfract, div_lt_div_iff₀ hden two_pos, one_mul, mul_comm 2]; norm_cast
  have hgt : q.den < 2 * (q.num % q.den) ↔ 1 / 2 < Reference.magnitude q - ⌊Reference.magnitude q⌋ := by
    rw [hfract, div_lt_div_iff₀ two_pos hden, one_mul, mul_comm 2]; norm_cast
  have heven : q.num / q.den % 2 = 0 ↔ ⌊Reference.magnitude q⌋ % 2 = 0 := by
    rw [← div_eq_floor_magnitude]; omega
  simp only [Frac.roundNearestEven, Reference.rne, hlt, hgt, heven, ← div_eq_floor_magnitude]
  split_ifs <;> push_cast <;> rfl

section
variable (r : ℚ) (n : ℤ)

/-- What is at most one half away is nearer than any other integer, or as near. -/
theorem rne_nearest : |r - Reference.rne r| ≤ |r - n| := by
  obtain ⟨hhalf, -⟩ := rne_bounds r
  obtain h | h := eq_or_ne (Reference.rne r) n
  · rw [h]
  · have hone : (1 : ℚ) ≤ |(Reference.rne r : ℚ) - n| := by exact_mod_cast Int.one_le_abs (sub_ne_zero.mpr h)
    have htri := abs_sub_le (Reference.rne r : ℚ) r n
    rw [abs_sub_comm _ r] at htri
    linarith

/-- Two integers equally near are one half away each. -/
theorem rne_even_of_tie {n : ℤ} (hne : n ≠ Reference.rne r) (heq : |r - Reference.rne r| = |r - n|) :
    Reference.rne r % 2 = 0 := by
  obtain ⟨hhalf, heven⟩ := rne_bounds r
  have hone : (1 : ℚ) ≤ |(Reference.rne r : ℚ) - n| := by exact_mod_cast Int.one_le_abs (sub_ne_zero.mpr hne.symm)
  have htri := abs_sub_le (Reference.rne r : ℚ) r n
  rw [abs_sub_comm _ r] at htri
  exact heven (by linarith)

/-- The rounding is above `n` from halfway to `n + 1`, and at halfway when `n` is odd. -/
theorem lt_rne_iff : n < Reference.rne r ↔ (n : ℚ) + 1 / 2 < r ∨ (n : ℚ) + 1 / 2 = r ∧ n % 2 = 1 := by
  obtain ⟨hhalf, heven⟩ := rne_bounds r
  obtain ⟨hlo, hhi⟩ := abs_le.mp hhalf
  constructor
  · intro h
    have hle : (n : ℚ) + 1 ≤ Reference.rne r := by exact_mod_cast h
    obtain hlt | heq := (show (n : ℚ) + 1 / 2 ≤ r by linarith).lt_or_eq
    · exact .inl hlt
    · have hnext : (Reference.rne r : ℚ) = n + 1 := by linarith
      have hev := heven (by rw [hnext, ← heq, abs_sub_comm]; norm_num)
      have hnext' : Reference.rne r = n + 1 := by exact_mod_cast hnext
      exact .inr ⟨heq, by omega⟩
  · intro h
    by_contra hc
    have hle : (Reference.rne r : ℚ) ≤ n := by exact_mod_cast not_lt.mp hc
    obtain hlt | ⟨heq, hodd⟩ := h
    · linarith
    · have hsame : (Reference.rne r : ℚ) = n := by linarith
      have hev := heven (by rw [hsame, ← heq]; norm_num)
      have hsame' : Reference.rne r = n := by exact_mod_cast hsame
      omega

end

/-- Settles O35: the rounding is RNE, which no integer beats and which is even when one ties. -/
theorem roundingIsNearestTiesToEven : Obligations.RoundingIsNearestTiesToEven := by
  intro q hd
  have hcast := roundNearestEven_cast hd
  have hcast' : (q.roundNearestEven : ℚ) = (Reference.rne (Reference.magnitude q) : ℚ) := by
    rw [← hcast, Int.cast_natCast]
  refine ⟨hcast, fun n => hcast' ▸ rne_nearest _ n, fun n hne heq => ?_⟩
  have heven := rne_even_of_tie _ (hcast ▸ hne) (hcast' ▸ heq)
  omega

/-! ## The encoding function on rationals (44_encoder.md R153) -/

theorem roundNearestEven_scaleDown_cast {q : Frac} (hd : 1 ≤ q.den) (k : ℤ) :
    ((q.scaleDown k).roundNearestEven : ℤ) = Reference.rne (Reference.magnitude q / Reference.pow2 k) := by
  rw [roundNearestEven_cast (scaleDown_den_pos hd k), magnitude_scaleDown]

/-- `F` on fractions is `F` on rationals: range by range, with the same scale. -/
theorem roundedMagnitude_cast (e m : ℕ) {q : Frac} (hn : 1 ≤ q.num) (hd : 1 ≤ q.den) :
    (roundedMagnitude e m q : ℤ) = Reference.rounded e m (Reference.magnitude q) := by
  simp only [roundedMagnitude, Reference.rounded, floorLog2_eq_log hn hd, bias_cast, minNormalExponentField,
    Nat.cast_one]
  split_ifs with h
  · push_cast
    rw [Int.toNat_of_nonneg (by omega), roundNearestEven_scaleDown_cast hd]
  · exact roundNearestEven_scaleDown_cast hd _

/-- The test for overflow on fractions is the test on rationals (44_encoder.md R157). -/
theorem infinity_le_roundedMagnitude_iff {e : ℕ} (m : ℕ) {q : Frac} (hn : 1 ≤ q.num) (hd : 1 ≤ q.den) :
    maxExponentField e * 2 ^ m ≤ roundedMagnitude e m q ↔
      Reference.maxef e * 2 ^ m ≤ Reference.rounded e m (Reference.magnitude q) := by
  rw [← roundedMagnitude_cast e m hn hd, ← maxExponentField_cast]
  norm_cast

/-- Settles O36: an exact zero is a zero numerator, and any other magnitude has the same `F`. -/
theorem encoderRefinesTheRationalEncoder : Obligations.EncoderRefinesTheRationalEncoder := by
  intro cfg e m sign q hd
  by_cases h0 : q.num = 0
  · have hsign : (zeroSign cfg sign : ℤ) = if cfg.negzeroIn then (sign : ℤ) else 0 := by simp [zeroSign]
    rw [encodeFinite, if_pos h0, Reference.encodeFinite, if_pos ((magnitude_eq_zero hd).mpr h0), packFields_cast, hsign]
    rfl
  · have hn : 1 ≤ q.num := Nat.one_le_iff_ne_zero.mpr h0
    simp only [encodeFinite, if_neg h0, Reference.encodeFinite, mt (magnitude_eq_zero hd).mp h0, if_false,
      infinity_le_roundedMagnitude_iff m hn hd]
    split_ifs
    · rw [packFields_cast, maxExponentField_cast]; rfl
    · rw [packFields_cast, ← roundedMagnitude_cast e m hn hd]; norm_cast

end Sys2Proof.Machine
end

section
/-! PROOFS. Where the rounded layout steps up (44_encoder.md R153): it exceeds a pattern from the midpoint between that
pattern's value and the next one on, ties going to the even significand. -/

namespace Sys2Proof.Machine

/-! ## Scaling a significand (44_encoder.md R154, R155) -/

section
variable {r : ℚ} {j : ℤ} {n : ℕ}

theorem div_pow2_lt_iff : r / Reference.pow2 j < 2 ^ n ↔ r < Reference.pow2 (j + n) := by
  rw [div_lt_iff₀ (pow2_pos j), mul_comm, pow2_add, pow2_natCast]

theorem two_pow_le_div_pow2_iff : 2 ^ n ≤ r / Reference.pow2 j ↔ Reference.pow2 (j + n) ≤ r := by
  rw [le_div_iff₀ (pow2_pos j), mul_comm, pow2_add, pow2_natCast]

theorem rne_div_pow2_le (h : r < Reference.pow2 (j + n)) : Reference.rne (r / Reference.pow2 j) ≤ 2 ^ n := by
  rw [← rne_intCast (2 ^ n)]
  exact rne_mono (by push_cast; exact (div_pow2_lt_iff.mpr h).le)

theorem two_pow_le_rne_div_pow2 (h : Reference.pow2 (j + n) ≤ r) :
    2 ^ n ≤ Reference.rne (r / Reference.pow2 j) := by
  rw [← rne_intCast (2 ^ n)]
  exact rne_mono (by push_cast; exact two_pow_le_div_pow2_iff.mpr h)

end

theorem scaleExp_of_pos {ef : ℕ} (e m : ℕ) (h : 1 ≤ ef) :
    Reference.scaleExp e m ef = ef - Reference.bias e - m := by
  rw [Reference.scaleExp, max_eq_left (by exact_mod_cast h)]

/-! ## One rounding for both ranges (44_encoder.md R153) -/

/-- The magnitude `r` is rounded at the scale of exponent field `x`: it lies below the binade after that of `x` and, unless
`x` is the least, not below its own. -/
structure RoundsAt (e m : ℕ) (r : ℚ) (x : ℕ) : Prop where
  one_le : 1 ≤ x
  lower : x ≠ 1 → Reference.pow2 (x - Reference.bias e) ≤ r
  upper : r < Reference.pow2 ((x + 1 : ℕ) - Reference.bias e)
  rounded_eq : Reference.rounded e m r =
    (x - 1 : ℕ) * 2 ^ m + Reference.rne (r / Reference.pow2 (Reference.scaleExp e m x))

/-- The field is `e + BIAS` in the normal range and 1 in the subnormal range. -/
theorem exists_roundsAt (e m : ℕ) {r : ℚ} (hr : 0 < r) : ∃ x, RoundsAt e m r x := by
  obtain ⟨hlo, hhi⟩ := log_bracket hr
  by_cases h : 1 ≤ Int.log 2 r + Reference.bias e
  · obtain ⟨x, hx⟩ := Int.eq_ofNat_of_zero_le (by omega : 0 ≤ Int.log 2 r + Reference.bias e)
    have hx1 : 1 ≤ x := by omega
    have hlog : (x : ℤ) - Reference.bias e = Int.log 2 r := by omega
    refine ⟨x, hx1, fun _ => hlog ▸ hlo, ?_, ?_⟩
    · rwa [Nat.cast_succ, add_sub_right_comm, hlog]
    · rw [Reference.rounded, if_pos h, scaleExp_of_pos e m hx1, hlog, hx, Nat.cast_pred hx1]
  · refine ⟨1, le_rfl, fun h1 => absurd rfl h1, hhi.trans_le (pow2_le_pow2.mpr (by push_cast; omega)), ?_⟩
    rw [Reference.rounded, if_neg h, scaleExp_of_pos e m le_rfl]
    simp

section
variable {e m x : ℕ} {r : ℚ} (h : RoundsAt e m r x)
include h

/-- In the normal range the rounding reaches the least pattern of its binade. -/
theorem RoundsAt.le_rounded (hx : x ≠ 1) : (x : ℤ) * 2 ^ m ≤ Reference.rounded e m r := by
  have hrne : (2 : ℤ) ^ m ≤ Reference.rne (r / Reference.pow2 (Reference.scaleExp e m x)) :=
    two_pow_le_rne_div_pow2 (by rw [scaleExp_of_pos e m h.one_le, sub_add_cancel]; exact h.lower hx)
  rw [h.rounded_eq, Nat.cast_pred h.one_le]
  linarith

/-- The rounding exceeds its binade by at most the carry. -/
theorem RoundsAt.rounded_le : Reference.rounded e m r ≤ (x + 1 : ℕ) * 2 ^ m := by
  have hrne : Reference.rne (r / Reference.pow2 (Reference.scaleExp e m x)) ≤ 2 ^ (m + 1) :=
    rne_div_pow2_le (by rw [scaleExp_of_pos e m h.one_le]; convert h.upper using 2; push_cast; ring)
  rw [h.rounded_eq, Nat.cast_pred h.one_le]
  push_cast
  rw [pow_succ] at hrne
  linarith

end

/-! ## Patterns and the midpoints between them (43_decoder.md R136) -/

/-- The significand of the positive pattern `b`, with the implicit bit (43_decoder.md R131). -/
def patternSignificand (m b : ℕ) : ℕ := significandOf m (b / 2 ^ m) (b % 2 ^ m)

/-- The value halfway between the positive patterns `b` and `b + 1`. -/
def midpoint (e m b : ℕ) : ℚ := (Reference.positiveValue e m b + Reference.positiveValue e m (b + 1)) / 2

section
variable (e m b : ℕ)

theorem positiveValue_eq : Reference.positiveValue e m b =
    patternSignificand m b * Reference.pow2 (Reference.scaleExp e m (b / 2 ^ m)) := by
  rw [Reference.positiveValue, Reference.value, ← significandOf_cast, pow_zero, one_mul, patternSignificand]

/-- One half more in the last place of the lower pattern. -/
theorem midpoint_eq : midpoint e m b =
    (patternSignificand m b + 1 / 2) * Reference.pow2 (Reference.scaleExp e m (b / 2 ^ m)) := by
  rw [midpoint, positiveValue_succ, positiveValue_eq]; ring

theorem positiveValue_lt_midpoint : Reference.positiveValue e m b < midpoint e m b := by
  have := positiveValue_strictMono e m b.lt_succ_self
  unfold midpoint; linarith

theorem midpoint_lt_positiveValue_succ : midpoint e m b < Reference.positiveValue e m (b + 1) := by
  have := positiveValue_strictMono e m b.lt_succ_self
  unfold midpoint; linarith

/-- A pattern is its significand, counted from the pattern of the binade before. -/
theorem mul_add_patternSignificand : (max (b / 2 ^ m) 1 - 1) * 2 ^ m + patternSignificand m b = b := by
  have hb := Nat.div_add_mod' b (2 ^ m)
  unfold patternSignificand significandOf
  split_ifs with h
  · simpa [h] using hb
  · obtain ⟨ef, hef⟩ := Nat.exists_eq_add_one.mpr (Nat.pos_of_ne_zero h)
    rw [hef] at hb ⊢
    rw [max_eq_left (Nat.le_add_left 1 ef), Nat.add_sub_cancel]
    linarith

theorem scaleExp_max_one (ef : ℕ) : Reference.scaleExp e m (max ef 1) = Reference.scaleExp e m ef := by
  simp [Reference.scaleExp]

end

theorem positiveValue_mul_two_pow {x : ℕ} (e m : ℕ) (hx : 1 ≤ x) :
    Reference.positiveValue e m (x * 2 ^ m) = Reference.pow2 (x - Reference.bias e) := by
  have h := positiveValue_mul_add e x (Nat.zero_le (2 ^ m))
  rw [Nat.add_zero] at h
  rw [h, Reference.value, if_neg (by omega), scaleExp_of_pos e m hx, pow2_sub _ (m : ℤ), pow2_natCast]
  simp [mul_div_cancel₀]

/-! ## The steps of the rounding (44_encoder.md R153, R159) -/

/-- `F` exceeds the pattern `b` above the midpoint after `b`, and at the midpoint when the significand of `b` is odd. In
the binade of `b` this is the rounding of the significand; in another the binade alone decides both sides. -/
theorem lt_rounded_iff (e m : ℕ) {r : ℚ} (hr : 0 < r) (b : ℕ) : (b : ℤ) < Reference.rounded e m r ↔
    midpoint e m b < r ∨ midpoint e m b = r ∧ patternSignificand m b % 2 = 1 := by
  obtain ⟨x, hx⟩ := exists_roundsAt e m hr
  have hone := hx.one_le
  have hbelow : b + 1 ≤ (b / 2 ^ m + 1) * 2 ^ m := by
    rw [mul_comm]; exact Nat.lt_mul_div_succ b (Nat.two_pow_pos m)
  have habove : b / 2 ^ m * 2 ^ m ≤ b := Nat.div_mul_le_self b _
  obtain h | ⟨h, hx1⟩ | h : max (b / 2 ^ m) 1 = x ∨ (b / 2 ^ m + 1 ≤ x ∧ x ≠ 1) ∨ x + 1 ≤ b / 2 ^ m := by omega
  · have hb : (((x - 1 : ℕ) * 2 ^ m + patternSignificand m b : ℤ)) = b := by
      exact_mod_cast h ▸ mul_add_patternSignificand m b
    rw [hx.rounded_eq, ← hb, add_lt_add_iff_left, midpoint_eq, ← h, scaleExp_max_one, lt_rne_iff,
      lt_div_iff₀ (pow2_pos _), eq_div_iff (pow2_ne_zero _)]
    norm_cast
  · have hbx : b + 1 ≤ x * 2 ^ m := hbelow.trans (Nat.mul_le_mul_right _ h)
    have hmid : midpoint e m b < r := calc midpoint e m b
      _ < Reference.positiveValue e m (b + 1) := midpoint_lt_positiveValue_succ e m b
      _ ≤ Reference.positiveValue e m (x * 2 ^ m) := (positiveValue_strictMono e m).monotone hbx
      _ = Reference.pow2 (x - Reference.bias e) := positiveValue_mul_two_pow e m hone
      _ ≤ r := hx.lower hx1
    exact iff_of_true (lt_of_lt_of_le (by exact_mod_cast hbx) (hx.le_rounded hx1)) (.inl hmid)
  · have hxb : (x + 1) * 2 ^ m ≤ b := (Nat.mul_le_mul_right _ h).trans habove
    have hmid : r < midpoint e m b := calc r
      _ < Reference.pow2 ((x + 1 : ℕ) - Reference.bias e) := hx.upper
      _ = Reference.positiveValue e m ((x + 1) * 2 ^ m) := (positiveValue_mul_two_pow e m (by omega)).symm
      _ ≤ Reference.positiveValue e m b := (positiveValue_strictMono e m).monotone hxb
      _ < midpoint e m b := positiveValue_lt_midpoint e m b
    exact iff_of_false (not_lt.mpr (hx.rounded_le.trans (by exact_mod_cast hxb)))
      (not_or.mpr ⟨hmid.not_gt, fun h' => hmid.ne' h'.1⟩)

section
variable {e m : ℕ} {q : Frac} (hn : 1 ≤ q.num) (hd : 1 ≤ q.den)
include hn hd

theorem lt_roundedMagnitude_iff (b : ℕ) : b < roundedMagnitude e m q ↔
    midpoint e m b < Reference.magnitude q ∨
      midpoint e m b = Reference.magnitude q ∧ patternSignificand m b % 2 = 1 := by
  rw [← lt_rounded_iff e m (magnitude_pos hn hd), ← roundedMagnitude_cast e m hn hd, Nat.cast_lt]

theorem roundedMagnitude_le_of_le_positiveValue {b : ℕ}
    (h : Reference.magnitude q ≤ Reference.positiveValue e m b) : roundedMagnitude e m q ≤ b := by
  have hlt := h.trans_lt (positiveValue_lt_midpoint e m b)
  rw [← not_lt, lt_roundedMagnitude_iff hn hd]
  exact not_or.mpr ⟨hlt.not_gt, fun h' => hlt.ne' h'.1⟩

theorem le_roundedMagnitude_of_positiveValue_le {b : ℕ}
    (h : Reference.positiveValue e m b ≤ Reference.magnitude q) : b ≤ roundedMagnitude e m q := by
  cases b with
  | zero => exact Nat.zero_le _
  | succ b => exact (lt_roundedMagnitude_iff hn hd b).mpr (.inl ((midpoint_lt_positiveValue_succ e m b).trans_le h))

/-- The value of a pattern is rounded to the pattern. -/
theorem roundedMagnitude_of_positiveValue {b : ℕ} (h : Reference.magnitude q = Reference.positiveValue e m b) :
    roundedMagnitude e m q = b :=
  le_antisymm (roundedMagnitude_le_of_le_positiveValue hn hd h.le)
    (le_roundedMagnitude_of_positiveValue_le hn hd h.ge)

/-- A tie goes to the pattern whose significand is even. -/
theorem roundedMagnitude_of_midpoint {b : ℕ} (h : Reference.magnitude q = midpoint e m b) :
    roundedMagnitude e m q = b + patternSignificand m b % 2 := by
  have hge : b ≤ roundedMagnitude e m q :=
    le_roundedMagnitude_of_positiveValue_le hn hd (h ▸ (positiveValue_lt_midpoint e m b).le)
  have hle : roundedMagnitude e m q ≤ b + 1 :=
    roundedMagnitude_le_of_le_positiveValue hn hd (h ▸ (midpoint_lt_positiveValue_succ e m b).le)
  have hstep : b < roundedMagnitude e m q ↔ patternSignificand m b % 2 = 1 := by
    rw [lt_roundedMagnitude_iff hn hd, h]
    simp
  omega

end

theorem roundedMagnitude_mono (e m : ℕ) {q q' : Frac} (hn : 1 ≤ q.num) (hd : 1 ≤ q.den) (hn' : 1 ≤ q'.num)
    (hd' : 1 ≤ q'.den) (h : Reference.magnitude q ≤ Reference.magnitude q') :
    roundedMagnitude e m q ≤ roundedMagnitude e m q' := by
  refine le_of_forall_lt fun b hb => ?_
  rw [lt_roundedMagnitude_iff hn hd] at hb
  rw [lt_roundedMagnitude_iff hn' hd']
  obtain hlt | ⟨heq, hodd⟩ := hb
  · exact .inl (hlt.trans_le h)
  · exact (heq.trans_le h).lt_or_eq.imp_right (⟨·, hodd⟩)

end Sys2Proof.Machine
end

section
/-! PROOFS. What the encoding function gives (44_encoder.md): the ranges, thresholds and ties of R154 to R159 and R167, the
monotonicity R165 and the round trip R164, all from where the rounded layout steps up. -/

namespace Sys2Proof.Machine

/-! ## The layout of a magnitude (44_encoder.md R153, R156 to R158) -/

section
variable (cfg : Config) (e m sign : ℕ)

theorem packFields_eq_add (ef sf : ℕ) : packFields e m sign ef sf = sign * 2 ^ (e + m) + (ef * 2 ^ m + sf) :=
  Nat.add_assoc _ _ _

theorem encodeFinite_of_num_eq_zero {q : Frac} (h : q.num = 0) :
    encodeFinite cfg e m sign q = zeroSign cfg sign * 2 ^ (e + m) := by
  simp [encodeFinite, h, packFields]

/-- The sign bit, and `F` up to the pattern of INFINITY. -/
theorem encodeFinite_of_pos {q : Frac} (hn : 1 ≤ q.num) : encodeFinite cfg e m sign q =
    sign * 2 ^ (e + m) + min (roundedMagnitude e m q) (maxExponentField e * 2 ^ m) := by
  simp only [encodeFinite, if_neg (Nat.one_le_iff_ne_zero.mp hn), packFields_eq]
  split_ifs with h
  · rw [min_eq_right h, packFields_eq_add, Nat.add_zero]
  · rw [min_eq_left (le_of_not_ge h)]

theorem maxExponentField_lt : maxExponentField e < 2 ^ e := Nat.sub_lt (Nat.two_pow_pos e) Nat.one_pos

/-- The pattern of INFINITY leaves the sign bit free. -/
theorem infinity_lt : maxExponentField e * 2 ^ m < 2 ^ (e + m) := by
  rw [two_pow_add]
  exact Nat.mul_lt_mul_of_pos_right (maxExponentField_lt e) (Nat.two_pow_pos m)

variable {cfg e m sign} {q : Frac}

theorem encodeFinite_eq_packFields {ef sf : ℕ} (hn : 1 ≤ q.num) (hF : roundedMagnitude e m q = ef * 2 ^ m + sf)
    (hle : ef * 2 ^ m + sf ≤ maxExponentField e * 2 ^ m) : encodeFinite cfg e m sign q = packFields e m sign ef sf := by
  rw [encodeFinite_of_pos cfg e m sign hn, hF, min_eq_left hle, packFields_eq_add]

theorem encodeFinite_eq_infinity_iff (hn : 1 ≤ q.num) :
    encodeFinite cfg e m sign q = packFields e m sign (maxExponentField e) 0 ↔
      maxExponentField e * 2 ^ m ≤ roundedMagnitude e m q := by
  rw [encodeFinite_of_pos cfg e m sign hn, packFields_eq_add, Nat.add_zero, Nat.add_left_cancel_iff, min_eq_right_iff]

end

/-! ## The two ranges (44_encoder.md R154, R155, R158) -/

theorem roundedMagnitude_of_normal (m : ℕ) {e x : ℕ} {q : Frac} (hd : 1 ≤ q.den)
    (hx : (x : ℤ) = q.floorLog2 + (bias e : ℕ)) (hx1 : 1 ≤ x) : (roundedMagnitude e m q : ℤ) =
      (x - 1 : ℕ) * 2 ^ m + Reference.rne (Reference.magnitude q / Reference.pow2 (q.floorLog2 - m)) := by
  have hnorm : (minNormalExponentField : ℤ) ≤ q.floorLog2 + (bias e : ℕ) := by
    rw [← hx]; exact_mod_cast hx1
  have hfield : (q.floorLog2 + (bias e : ℕ) - 1).toNat = x - 1 := by omega
  simp only [roundedMagnitude, if_pos hnorm, hfield]
  push_cast
  rw [roundNearestEven_scaleDown_cast hd]

theorem roundedMagnitude_of_subnormal {e : ℕ} (m : ℕ) {q : Frac} (hd : 1 ≤ q.den)
    (h : q.floorLog2 + (bias e : ℕ) < 1) : (roundedMagnitude e m q : ℤ) =
      Reference.rne (Reference.magnitude q / Reference.pow2 (1 - Reference.bias e - m)) := by
  have hsub : ¬ (minNormalExponentField : ℤ) ≤ q.floorLog2 + (bias e : ℕ) := not_le.mpr h
  simp only [roundedMagnitude, if_neg hsub]
  rw [roundNearestEven_scaleDown_cast hd, bias_cast]

theorem one_le_maxExponentField {e : ℕ} (he : 1 ≤ e) : 1 ≤ maxExponentField e :=
  Nat.le_sub_of_add_le (Nat.le_self_pow (by omega) 2)

/-- Settles O37: the significand is scaled into its binade, and a carry gives the least pattern of the next exponent
field, up to MAXEF. -/
theorem normalRangeCarriesIntoTheExponent : Obligations.NormalRangeCarriesIntoTheExponent := by
  intro cfg e m sign q x _ hn hd hx hx1 hlt N
  obtain ⟨hlo, hhi⟩ := floorLog2_bracket hn hd
  have hlo' : Reference.pow2 (q.floorLog2 - m + m) ≤ Reference.magnitude q := by rwa [sub_add_cancel]
  have hhi' : Reference.magnitude q < Reference.pow2 (q.floorLog2 - m + (m + 1 : ℕ)) := by
    convert hhi using 2; push_cast; ring
  have hNlo : 2 ^ m ≤ N := two_pow_le_rne_div_pow2 hlo'
  have hNhi : N ≤ 2 ^ (m + 1) := rne_div_pow2_le hhi'
  have hF : (roundedMagnitude e m q : ℤ) = (x - 1 : ℕ) * 2 ^ m + N := roundedMagnitude_of_normal m hd hx hx1
  refine ⟨two_pow_le_div_pow2_iff.mpr hlo', div_pow2_lt_iff.mpr hhi', hNlo, hNhi, ?_⟩
  obtain ⟨n, hNn⟩ := Int.eq_ofNat_of_zero_le (le_trans (by positivity) hNlo : 0 ≤ N)
  rw [hNn] at hNlo hNhi hF ⊢
  norm_cast at hNlo hNhi hF ⊢
  have hnext : x * 2 ^ m = (x - 1) * 2 ^ m + 2 ^ m := by rw [← Nat.succ_mul, Nat.succ_eq_add_one, Nat.sub_add_cancel hx1]
  have hcarry : (x + 1) * 2 ^ m = x * 2 ^ m + 2 ^ m := Nat.succ_mul _ _
  have hle : (x + 1) * 2 ^ m ≤ maxExponentField e * 2 ^ m := Nat.mul_le_mul_right _ hlt
  have hpack {ef sf : ℕ} (h : (x - 1) * 2 ^ m + n = ef * 2 ^ m + sf) :
      encodeFinite cfg e m sign q = packFields e m sign ef sf :=
    encodeFinite_eq_packFields hn (hF.trans h) (by omega)
  exact ⟨fun _ => hpack (by omega), fun h => hpack (by omega), fun h hmax => hmax ▸ hpack (by omega)⟩

/-- Settles O38: `F` is `N` itself, at most the pattern of exponent field 1, which is MAXEF when `E = 1`. -/
theorem subnormalRangeRoundsOnItsGrid : Obligations.SubnormalRangeRoundsOnItsGrid := by
  intro cfg e m sign q he hn hd hsub N
  have hhi : Reference.magnitude q < Reference.pow2 (1 - Reference.bias e - m + m) := by
    refine (floorLog2_bracket hn hd).2.trans_le (pow2_le_pow2.mpr ?_)
    rw [← bias_cast]; omega
  have hNlo : 0 ≤ N := rne_nonneg (div_nonneg (magnitude_nonneg q) (pow2_pos _).le)
  have hNhi : N ≤ 2 ^ m := rne_div_pow2_le hhi
  have hF : (roundedMagnitude e m q : ℤ) = N := roundedMagnitude_of_subnormal m hd hsub
  refine ⟨hNlo, hNhi, ?_⟩
  obtain ⟨n, hNn⟩ := Int.eq_ofNat_of_zero_le hNlo
  rw [hNn] at hNhi hF ⊢
  norm_cast at hNhi hF ⊢
  have hle : 1 * 2 ^ m ≤ maxExponentField e * 2 ^ m := Nat.mul_le_mul_right _ (one_le_maxExponentField he)
  have hone : e = 1 → maxExponentField e = 1 := by rintro rfl; rfl
  have hpack {ef sf : ℕ} (h : n = ef * 2 ^ m + sf) : encodeFinite cfg e m sign q = packFields e m sign ef sf :=
    encodeFinite_eq_packFields hn (hF.trans h) (by omega)
  exact ⟨fun _ _ => hpack (by omega), fun h => hpack (by omega), fun h he1 => hpack (by rw [hone he1]; omega),
    fun h => hpack (by omega)⟩

/-! ## Overflow and underflow (44_encoder.md R157, R159) -/

/-- Settles O40: a magnitude not below the binade of MAXEF is rounded to the pattern of MAXEF or above it. -/
theorem overflowIsTestedOnTheRoundedResult : Obligations.OverflowIsTestedOnTheRoundedResult := by
  intro cfg e m sign q he _ hn hd
  refine ⟨(encodeFinite_eq_infinity_iff hn).trans (infinity_le_roundedMagnitude_iff m hn hd), fun h => ?_⟩
  refine (encodeFinite_eq_infinity_iff hn).mpr (le_roundedMagnitude_of_positiveValue_le hn hd ?_)
  calc Reference.positiveValue e m (maxExponentField e * 2 ^ m)
    _ = Reference.pow2 (maxExponentField e - Reference.bias e) :=
      positiveValue_mul_two_pow e m (one_le_maxExponentField he)
    _ ≤ Reference.pow2 q.floorLog2 := by
      rw [maxExponentField_cast]; exact pow2_le_pow2.mpr (sub_le_iff_le_add.mpr h)
    _ ≤ Reference.magnitude q := (floorLog2_bracket hn hd).1

theorem patternSignificand_zero (m : ℕ) : patternSignificand m 0 = 0 := by simp [patternSignificand, significandOf]

/-- Half of the smallest subnormal. -/
theorem midpoint_zero (e m : ℕ) : midpoint e m 0 = Reference.pow2 (-Reference.bias e - m) := by
  have hscale : Reference.scaleExp e m 0 = -Reference.bias e - m + 1 := by rw [Reference.scaleExp]; push_cast; omega
  rw [midpoint_eq, patternSignificand_zero, Nat.zero_div, hscale, pow2_succ]
  push_cast; ring

/-- Settles O41: below the sign bit stands `F`, up to INFINITY, and `F` is 0 up to the first midpoint; significand 0 is
even. -/
theorem underflowThreshold : Obligations.UnderflowThreshold := by
  intro cfg e m sign q he _ hn hd
  have hinf : 0 < maxExponentField e * 2 ^ m := Nat.mul_pos (one_le_maxExponentField he) (Nat.two_pow_pos m)
  have hstep : 0 < roundedMagnitude e m q ↔ Reference.pow2 (-Reference.bias e - m) < Reference.magnitude q := by
    simp [lt_roundedMagnitude_iff hn hd, patternSignificand_zero, midpoint_zero]
  rw [encodeFinite_of_pos cfg e m sign hn, Nat.mul_add_mod_self_right,
    Nat.mod_eq_of_lt ((min_le_right _ _).trans_lt (infinity_lt e m)), Nat.min_eq_zero_iff, or_iff_left hinf.ne',
    ← not_lt (b := Reference.magnitude q), ← hstep, Nat.pos_iff_ne_zero, not_not]

/-- A pattern given by its fields has their significand. -/
theorem patternSignificand_mul_add {m sf : ℕ} (ef : ℕ) (h : sf < 2 ^ m) :
    patternSignificand m (ef * 2 ^ m + sf) = significandOf m ef sf := by
  obtain ⟨hdiv, hmod⟩ := mul_two_pow_add_div_mod ef h
  rw [patternSignificand, hdiv, hmod]

theorem midpoint_mul_add (e : ℕ) {m sf : ℕ} (ef : ℕ) (h : sf < 2 ^ m) : midpoint e m (ef * 2 ^ m + sf) =
    (significandOf m ef sf + 1 / 2) * Reference.pow2 (Reference.scaleExp e m ef) := by
  rw [midpoint_eq, patternSignificand_mul_add ef h, (mul_two_pow_add_div_mod ef h).1]

/-- INFINITY begins halfway above the largest finite pattern, of exponent field `MAXEF - 1` and all bits of the significand
field, and at halfway if the significand `g` of that pattern is odd. -/
theorem encodeFinite_eq_infinity_iff_of_largest {cfg : Config} {e m sign g : ℕ} {k : ℤ} {q : Frac} (he : 1 ≤ e)
    (hn : 1 ≤ q.num) (hd : 1 ≤ q.den) (hg : significandOf m (maxExponentField e - 1) (2 ^ m - 1) = g)
    (hk : Reference.scaleExp e m (maxExponentField e - 1) = k) :
    encodeFinite cfg e m sign q = packFields e m sign (maxExponentField e) 0 ↔
      (g + 1 / 2) * Reference.pow2 k < Reference.magnitude q ∨
        (g + 1 / 2) * Reference.pow2 k = Reference.magnitude q ∧ g % 2 = 1 := by
  have hpos := Nat.two_pow_pos m
  have hsf : 2 ^ m - 1 < 2 ^ m := Nat.sub_lt hpos Nat.one_pos
  have hlast : maxExponentField e * 2 ^ m = (maxExponentField e - 1) * 2 ^ m + (2 ^ m - 1) + 1 := by
    rw [Nat.add_assoc, Nat.sub_add_cancel hpos, ← Nat.succ_mul, Nat.succ_eq_add_one,
      Nat.sub_add_cancel (one_le_maxExponentField he)]
  rw [encodeFinite_eq_infinity_iff hn, hlast, Nat.succ_le_iff, lt_roundedMagnitude_iff hn hd,
    patternSignificand_mul_add _ hsf, midpoint_mul_add e _ hsf, hg, hk]

/-- Settles O42: the significand of the largest finite pattern is `2^(M+1) - 1`, which is odd, for `E >= 2`. For `E = 1`
that pattern is subnormal, and its significand `2^M - 1` is odd for `M >= 1` and 0 for `M = 0`. -/
theorem overflowThreshold : Obligations.OverflowThreshold := by
  intro cfg e m sign q he _ hn hd isInfinity
  have hpos := Nat.two_pow_pos m
  have hcast : ((2 ^ m - 1 : ℕ) : ℚ) = 2 ^ m - 1 := by push_cast [hpos]; rfl
  refine ⟨fun he2 => ?_, fun he1 hm => ?_, fun he1 hm => ?_⟩
  · have hmax : 1 ≤ maxExponentField e - 1 := by
      have : 2 ^ 2 ≤ 2 ^ e := Nat.pow_le_pow_right two_pos he2
      unfold maxExponentField; omega
    have hk : Reference.scaleExp e m (maxExponentField e - 1) = Reference.maxef e - 2 - Reference.bias e - m + 1 := by
      rw [scaleExp_of_pos e m hmax, ← maxExponentField_cast]; omega
    have hk' : Reference.maxef e - 1 - Reference.bias e - m = Reference.maxef e - 2 - Reference.bias e - m + 1 := by ring
    refine (encodeFinite_eq_infinity_iff_of_largest he hn hd (if_neg (by omega)) hk).trans ?_
    rw [and_iff_left (by omega), ← le_iff_lt_or_eq, hk', pow2_succ, Nat.cast_add, hcast]
    push_cast
    ring_nf
  · subst he1
    have heven := (Nat.even_pow.mpr ⟨even_two, (by omega : m ≠ 0)⟩).two_dvd
    have hk : Reference.scaleExp 1 m 0 = 1 - m := rfl
    refine (encodeFinite_eq_infinity_iff_of_largest (g := 2 ^ m - 1) he hn hd rfl hk).trans ?_
    rw [and_iff_left (by omega), ← le_iff_lt_or_eq, hcast]
    ring_nf
  · subst he1 hm
    refine (encodeFinite_eq_infinity_iff_of_largest (g := 0) (k := 1) he hn hd rfl rfl).trans ?_
    simp

/-! ## The nearest value (44_encoder.md R159) -/

section
variable (x a c : ℚ)

theorem sq_sub_sub_sq_sub : (x - c) ^ 2 - (x - a) ^ 2 = 2 * ((a - c) * (x - (a + c) / 2)) := by ring

/-- Which of two values is nearer is decided at the halfway point. -/
theorem abs_sub_le_abs_sub_iff : |x - a| ≤ |x - c| ↔ 0 ≤ (a - c) * (x - (a + c) / 2) := by
  rw [← sq_le_sq, ← sub_nonneg, sq_sub_sub_sq_sub, mul_nonneg_iff_of_pos_left two_pos]

theorem eq_half_of_abs_sub_eq {x a c : ℚ} (hac : a ≠ c) (h : |x - a| = |x - c|) : x = (a + c) / 2 := by
  have hprod : 2 * ((a - c) * (x - (a + c) / 2)) = 0 := by
    rw [← sq_sub_sub_sq_sub, sub_eq_zero, sq_eq_sq_iff_abs_eq_abs, h]
  simpa [sub_eq_zero, hac] using hprod

end

theorem patternSignificand_mod_two {m : ℕ} (hm : 1 ≤ m) (b : ℕ) : patternSignificand m b % 2 = b % 2 := by
  have heven : 2 ∣ 2 ^ m := dvd_pow_self 2 (by omega)
  have hb := mul_add_patternSignificand m b
  have hdvd := heven.mul_left (max (b / 2 ^ m) 1 - 1)
  omega

theorem half_le_midpoint (e m : ℕ) {b c : ℕ} (h : b ≤ c) :
    (Reference.positiveValue e m (c + 1) + Reference.positiveValue e m b) / 2 ≤ midpoint e m c := by
  have := (positiveValue_strictMono e m).monotone h
  unfold midpoint; linarith

theorem midpoint_le_half (e m : ℕ) {b c : ℕ} (h : b < c) :
    midpoint e m b ≤ (Reference.positiveValue e m b + Reference.positiveValue e m c) / 2 := by
  have := (positiveValue_strictMono e m).monotone (Nat.succ_le_of_lt h)
  unfold midpoint; linarith

section
variable {e m : ℕ} {q : Frac} (hn : 1 ≤ q.num) (hd : 1 ≤ q.den)
include hn hd

theorem magnitude_le_midpoint : Reference.magnitude q ≤ midpoint e m (roundedMagnitude e m q) :=
  not_lt.mp fun h => lt_irrefl _ ((lt_roundedMagnitude_iff hn hd _).mpr (.inl h))

theorem midpoint_le_magnitude {b : ℕ} (h : b < roundedMagnitude e m q) : midpoint e m b ≤ Reference.magnitude q := by
  obtain h | ⟨h, -⟩ := (lt_roundedMagnitude_iff hn hd b).mp h
  · exact h.le
  · exact h.le

section
variable {b b' : ℕ} (hF : roundedMagnitude e m q = b)
include hF

/-- The magnitude lies on the side of `F` of the point halfway to any other pattern. -/
theorem roundedMagnitude_nearest : |Reference.magnitude q - Reference.positiveValue e m b| ≤
    |Reference.magnitude q - Reference.positiveValue e m b'| := by
  have hmono := (positiveValue_strictMono e m).monotone
  rw [abs_sub_le_abs_sub_iff]
  obtain h | rfl | h := lt_trichotomy b' b
  · obtain ⟨c, rfl⟩ := Nat.exists_eq_add_one.mpr (Nat.zero_lt_of_lt h)
    have hmid := midpoint_le_magnitude hn hd (by omega : c < roundedMagnitude e m q)
    exact mul_nonneg (sub_nonneg.mpr (hmono h.le))
      (sub_nonneg.mpr ((half_le_midpoint e m (Nat.le_of_lt_succ h)).trans hmid))
  · simp
  · have hmid := magnitude_le_midpoint (e := e) (m := m) hn hd
    rw [hF] at hmid
    exact mul_nonneg_of_nonpos_of_nonpos (sub_nonpos.mpr (hmono h.le))
      (sub_nonpos.mpr (hmid.trans (midpoint_le_half e m h)))

/-- A magnitude as near to another pattern as to `F` is the midpoint before or after `F`, and went to the even one. -/
theorem roundedMagnitude_even_of_tie (hm : 1 ≤ m) (hne : b' ≠ b)
    (heq : |Reference.magnitude q - Reference.positiveValue e m b| =
      |Reference.magnitude q - Reference.positiveValue e m b'|) : b % 2 = 0 := by
  have hhalf := eq_half_of_abs_sub_eq ((positiveValue_strictMono e m).injective.ne hne.symm) heq
  obtain h | h := hne.lt_or_gt
  · obtain ⟨c, rfl⟩ := Nat.exists_eq_add_one.mpr (Nat.zero_lt_of_lt h)
    have hmid := midpoint_le_magnitude hn hd (by omega : c < roundedMagnitude e m q)
    have htie := roundedMagnitude_of_midpoint hn hd
      (le_antisymm (hhalf.trans_le (half_le_midpoint e m (Nat.le_of_lt_succ h))) hmid)
    rw [hF, patternSignificand_mod_two hm] at htie
    omega
  · have hmid := magnitude_le_midpoint (e := e) (m := m) hn hd
    rw [hF] at hmid
    have htie := roundedMagnitude_of_midpoint hn hd
      (le_antisymm hmid ((midpoint_le_half e m h).trans hhalf.ge))
    rw [hF, patternSignificand_mod_two hm] at htie
    omega

end

end

/-- Settles O43: below INFINITY and without a sign bit the layout is `F`. -/
theorem encoderGivesTheNearestValue : Obligations.EncoderGivesTheNearestValue := by
  intro cfg e m q _ hn hd b hb b' _
  have hb' : b = 0 * 2 ^ (e + m) + min (roundedMagnitude e m q) (maxExponentField e * 2 ^ m) :=
    encodeFinite_of_pos cfg e m 0 hn
  have hinf : b < maxExponentField e * 2 ^ m := hb
  have hF : roundedMagnitude e m q = b := by omega
  exact ⟨roundedMagnitude_nearest hn hd hF, roundedMagnitude_even_of_tie hn hd hF⟩

/-! ## Ties (44_encoder.md R159, R167) -/

theorem one_le_num_of_magnitude_pos {q : Frac} (hd : 1 ≤ q.den) (h : 0 < Reference.magnitude q) : 1 ≤ q.num :=
  Nat.one_le_iff_ne_zero.mpr (mt (magnitude_eq_zero hd).mpr h.ne')

/-- Without significand bits the midpoint after a normal is one and a half times its value. -/
theorem midpoint_of_no_significand (e : ℕ) {x : ℕ} (hx : 1 ≤ x) :
    midpoint e 0 x = 3 / 2 * Reference.pow2 (x - Reference.bias e) := by
  have h := midpoint_mul_add e (m := 0) x Nat.one_pos
  rw [scaleExp_of_pos e 0 hx, significandOf, if_neg (by omega)] at h
  norm_num at h
  exact h

/-- Settles O44: the significand of a normal is 1, which is odd, and that of the pattern 0 is even. -/
theorem tiesWithoutSignificandBits : Obligations.TiesWithoutSignificandBits := by
  intro cfg e sign q x _ hd
  refine ⟨fun hx hlt h => ?_, fun h => ?_⟩
  · have hn := one_le_num_of_magnitude_pos hd (h ▸ mul_pos (by norm_num) (pow2_pos _))
    have hF := roundedMagnitude_of_midpoint hn hd (h.trans (midpoint_of_no_significand e hx).symm)
    have hsig : patternSignificand 0 x = 1 := by
      simp [patternSignificand, significandOf, Nat.mod_one, Nat.one_le_iff_ne_zero.mp hx]
    exact encodeFinite_eq_packFields hn (by rw [hF, hsig]; simp) (by simpa using (show x < maxExponentField e from hlt))
  · have hn := one_le_num_of_magnitude_pos hd (h ▸ pow2_pos _)
    have hF := roundedMagnitude_of_midpoint (e := e) (m := 0) hn hd (h.trans (by rw [midpoint_zero]; simp))
    rw [patternSignificand_zero] at hF
    exact encodeFinite_eq_packFields hn (by rw [hF]; simp) (by simp)

/-- From the pattern of 1 on, the midpoints lie at odd multiples of half a unit in the last place. -/
theorem midpoint_from_one {e m sf : ℕ} (he : 1 ≤ bias e) (hsf : sf < 2 ^ m) : midpoint e m (bias e * 2 ^ m + sf) =
    1 + (2 * sf + 1) * Reference.pow2 (-(m + 1)) := by
  have hk : Reference.scaleExp e m (bias e) = -(m + 1) + 1 := by
    rw [scaleExp_of_pos e m he, bias_cast]; ring
  have hone : (2 : ℚ) ^ m * (2 * Reference.pow2 (-(m + 1))) = 1 := by
    rw [← pow2_succ, show (-(m + 1) + 1 : ℤ) = -m by ring, ← pow2_natCast, ← pow2_add, add_neg_cancel, pow2_zero]
  rw [midpoint_mul_add e _ hsf, significandOf_cast, if_neg (by omega), hk, pow2_succ]
  linear_combination hone

/-- A tie in the binade of 1 goes up exactly from an odd significand field. -/
theorem roundedMagnitude_from_one {e m sf : ℕ} {q : Frac} (he : 1 ≤ bias e) (hm : 1 ≤ m) (hsf : sf < 2 ^ m)
    (hd : 1 ≤ q.den) (h : Reference.magnitude q = 1 + (2 * sf + 1) * Reference.pow2 (-(m + 1))) :
    1 ≤ q.num ∧ roundedMagnitude e m q = bias e * 2 ^ m + (sf + sf % 2) := by
  have hpos := pow2_pos (-(m + 1))
  have hn : 1 ≤ q.num := one_le_num_of_magnitude_pos hd (by rw [h]; positivity)
  have hodd : (bias e * 2 ^ m + sf) % 2 = sf % 2 := by
    have hdvd := (dvd_pow_self 2 (by omega : m ≠ 0)).mul_left (bias e)
    omega
  rw [roundedMagnitude_of_midpoint hn hd (h.trans (midpoint_from_one he hsf).symm), patternSignificand_mod_two hm, hodd,
    Nat.add_assoc]
  exact ⟨hn, rfl⟩

/-- From two exponent bits on, exponent field BIAS stands for a normal number below the last exponent field. -/
theorem bias_bounds {e : ℕ} (he : 2 ≤ e) : 1 ≤ bias e ∧ bias e + 1 ≤ maxExponentField e := by
  have htwo : 2 ≤ 2 ^ (e - 1) := Nat.le_self_pow (by omega) 2
  have hpow : 2 ^ e = 2 ^ (e - 1) * 2 := by rw [← pow_succ, Nat.sub_add_cancel (by omega)]
  unfold bias maxExponentField
  omega

/-- Settles O51: the significand fields 0 and 1 before the two ties are even and odd, and for `E >= 2` both results are
below the pattern of INFINITY. -/
theorem tiesNextToOneGoToEven : Obligations.TiesNextToOneGoToEven := by
  intro cfg e m q he hm hd
  obtain ⟨hbias, hmax⟩ := bias_bounds he
  have hm' : 2 ≤ 2 ^ m := Nat.le_self_pow (by omega) 2
  have hle : bias e * 2 ^ m + 2 ≤ maxExponentField e * 2 ^ m := calc bias e * 2 ^ m + 2
    _ ≤ bias e * 2 ^ m + 2 ^ m := Nat.add_le_add_left hm' _
    _ = (bias e + 1) * 2 ^ m := (Nat.succ_mul _ _).symm
    _ ≤ maxExponentField e * 2 ^ m := Nat.mul_le_mul_right _ hmax
  refine ⟨fun h => ?_, fun h => ?_⟩
  · obtain ⟨hn, hF⟩ := roundedMagnitude_from_one (sf := 0) hbias hm (by omega) hd (by rw [h]; simp)
    exact encodeFinite_eq_packFields hn hF (by omega)
  · obtain ⟨hn, hF⟩ := roundedMagnitude_from_one (sf := 1) hbias hm (by omega) hd (by rw [h]; norm_num)
    exact encodeFinite_eq_packFields hn hF (by omega)

/-! ## Monotonicity (44_encoder.md R165) -/

theorem zeroSign_le (cfg : Config) (sign : ℕ) : zeroSign cfg sign ≤ sign := by
  unfold zeroSign
  split_ifs
  · exact le_rfl
  · exact Nat.zero_le _

/-- Settles O49: with a zero below, the sign bit alone; else `F` is monotone. -/
theorem encodingIsMonotone : Obligations.EncodingIsMonotone := by
  intro cfg e m sign q q' _ _ hd hd' h
  obtain h0 | hn := Nat.eq_zero_or_pos q.num
  · rw [encodeFinite_of_num_eq_zero cfg e m sign h0]
    obtain h0' | hn' := Nat.eq_zero_or_pos q'.num
    · exact (encodeFinite_of_num_eq_zero cfg e m sign h0').ge
    · rw [encodeFinite_of_pos cfg e m sign hn']
      exact (Nat.mul_le_mul_right _ (zeroSign_le cfg sign)).trans (Nat.le_add_right _ _)
  · have hn' := one_le_num_of_magnitude_pos hd' ((magnitude_pos hn hd).trans_le h)
    rw [encodeFinite_of_pos cfg e m sign hn, encodeFinite_of_pos cfg e m sign hn']
    exact Nat.add_le_add_left (min_le_min_right _ (roundedMagnitude_mono e m hn hd hn' hd' h)) _

/-! ## The round trip (44_encoder.md R164) -/

theorem value_sign (e m sign ef sf : ℕ) :
    Reference.value e m sign ef sf = (-1) ^ sign * Reference.value e m 0 ef sf := by
  simp only [Reference.value]; ring

theorem value_nonneg (e m ef sf : ℕ) : 0 ≤ Reference.value e m 0 ef sf := by
  have := pow2_pos (Reference.scaleExp e m ef)
  rw [Reference.value, ← significandOf_cast]; positivity

/-- The absolute value of the decoded fraction of a layout is the value of the layout without its sign. -/
theorem magnitude_valueOf (e m : ℕ) {f : RawFields} (hs : f.sign < 2) :
    Reference.magnitude ⟨(valueOf e m f).1.natAbs, (valueOf e m f).2⟩ = Reference.value e m 0 f.ef f.sf := by
  obtain ⟨hvalue, -⟩ := reducedTo_valueOf e m hs
  have habs := congrArg abs hvalue
  rw [value_sign, abs_mul, abs_pow, abs_neg, abs_one, one_pow, one_mul, abs_of_nonneg (value_nonneg e m f.ef f.sf), abs_div,
    Nat.abs_cast] at habs
  rw [← habs, Reference.magnitude, Nat.cast_natAbs, Int.cast_abs]

theorem valueOf_den_pos (e m : ℕ) {f : RawFields} (hs : f.sign < 2) : 1 ≤ (valueOf e m f).2 := by
  obtain ⟨-, ⟨k, hk⟩, -⟩ := reducedTo_valueOf e m hs
  rw [hk]; exact Nat.one_le_two_pow

theorem positiveValue_zero (e m : ℕ) : Reference.positiveValue e m 0 = 0 := by
  rw [positiveValue_eq, patternSignificand_zero, Nat.cast_zero, zero_mul]

/-- Settles O48: a layout is its sign bit and a finite pattern, which is the `F` of its own value. -/
theorem encodingADecodedValueGivesTheLayoutBack : Obligations.EncodingADecodedValueGivesTheLayoutBack := by
  intro cfg e m b _ hb hef
  have hs := splitFields_sign_lt hb
  have hd := valueOf_den_pos e m hs
  have hmag := magnitude_valueOf e m hs
  have hpack := packFields_splitFields e m b
  have hsf := splitFields_sf_lt e m b
  generalize splitFields e m b = f at *
  rw [← positiveValue_mul_add e f.ef hsf.le] at hmag
  have hfinite := fields_lt (hef.trans (maxExponentField_lt e)) hsf
  obtain h0 | hpos := Nat.eq_zero_or_pos (f.ef * 2 ^ m + f.sf)
  · rw [h0, positiveValue_zero, magnitude_eq_zero hd] at hmag
    rw [encodeFinite_of_num_eq_zero cfg e m f.sign hmag]
    rw [packFields_eq_add, h0, Nat.add_zero] at hpack
    rw [← hpack]
    obtain hs | hs : f.sign = 0 ∨ f.sign = 1 := by omega
    · simp [zeroSign, hs]
    · cases hz : cfg.negzeroIn <;> simp [zeroSign, hs, hz]
  · have hn := one_le_num_of_magnitude_pos hd
      (hmag ▸ positiveValue_zero e m ▸ positiveValue_strictMono e m hpos)
    have hF := roundedMagnitude_of_positiveValue hn hd hmag
    have hle : f.ef * 2 ^ m + f.sf ≤ maxExponentField e * 2 ^ m := by
      calc f.ef * 2 ^ m + f.sf
        _ ≤ (f.ef + 1) * 2 ^ m := by rw [Nat.succ_mul]; omega
        _ ≤ maxExponentField e * 2 ^ m := Nat.mul_le_mul_right _ hef
    rw [encodeFinite_eq_packFields hn hF hle, hpack, if_neg]
    rintro ⟨-, hb⟩
    rw [packFields_eq_add, hb] at hpack
    obtain hs | hs : f.sign = 0 ∨ f.sign = 1 := by omega
    all_goals
      rw [hs] at hpack
      omega

end Sys2Proof.Machine
end

section
/-! PROOFS. The encode commands (44_encoder.md R160 to R162): what each answers, and the width and the sign of every layout
they answer with (R156, R166, R168). -/

namespace Sys2Proof.Machine

open Laws.EncodedHeader (opcode)

/-! ## ENCODE.RAT (44_encoder.md R160) -/

/-- A natural is read as itself. -/
theorem asNat_natCast (n : Nat) : asNat (n : Int) = some n := asNat_eq_some.mpr rfl

section
variable {s : State} {sign : Bool} {num den : Int} {n d : Nat}

theorem exec_encodeRat_of_fraction (hv : s.fmt.valid = true) (hn : asNat num = some n) (hd : asNat den = some d)
    (hd0 : d ≠ 0) : exec (.encodeRat sign num den) s =
      answer (.bits (encodeFinite s.config s.fmt.e s.fmt.m (bitOf sign) ⟨n, d⟩)) s := by
  rw [exec, execEncodeRat, withFormat_valid _ _ hv, hn, hd, wellFormedOr_some, wellFormedOr_some, if_neg hd0]

theorem exec_encodeRat_of_zero_den (hv : s.fmt.valid = true) (hn : asNat num = some n) (hd : asNat den = some 0) :
    exec (.encodeRat sign num den) s = raise .unrepresentableInput s := by
  rw [exec, execEncodeRat, withFormat_valid _ _ hv, hn, hd, wellFormedOr_some, wellFormedOr_some, if_pos rfl]

theorem exec_encodeRat_of_negative (hv : s.fmt.valid = true) (h : asNat num = none ∨ asNat den = none) :
    exec (.encodeRat sign num den) s = raise .malformedInput s := by
  rw [exec, execEncodeRat, withFormat_valid _ _ hv, wellFormedOr_of_either_none _ _ h]

theorem exec_encodeRat_of_no_format (hv : s.fmt.valid = false) :
    exec (.encodeRat sign num den) s = raise .invalidFormat s := by
  rw [exec, execEncodeRat, withFormat_invalid _ _ hv]

end

theorem decodeCommand_encodeRat (sign : Bool) (num den : Int) :
    decodeCommand ⟨BitVec.ofNat 32 (0x00000030 + bitOf sign * 0x100), num, den⟩ =
      .command (.encodeRat sign num den) := by
  rw [← headerWord_sign]
  exact decodingEncodedCommandGivesItBack (.encodeRat sign num den) rfl

/-- Settles O45: the operands are a fraction of naturals, which the encoder takes as the rational it stands for, or one is
negative or the denominator 0. -/
theorem encodeRatResult : Obligations.EncodeRatResult := by
  intro s sign num den
  refine ⟨decodeCommand_encodeRat sign num den, fun hv hn hd => ?_,
    fun hv h => exec_encodeRat_of_negative hv (h.imp asNat_of_neg asNat_of_neg),
    fun hv hn hd => exec_encodeRat_of_zero_den hv (asNat_of_nonneg hn) (hd ▸ rfl), exec_encodeRat_of_no_format⟩
  obtain ⟨n, rfl⟩ := Int.eq_ofNat_of_zero_le hn
  obtain ⟨d, rfl⟩ := Int.eq_ofNat_of_zero_le (by omega : 0 ≤ den)
  exact ⟨_, exec_encodeRat_of_fraction hv (asNat_natCast n) (asNat_natCast d) (by omega),
    encoderRefinesTheRationalEncoder s.config _ _ _ ⟨n, d⟩ (by exact_mod_cast hd)⟩

/-! ## ENCODE.DEC (44_encoder.md R161) -/

section
variable {s : State} {sign : Bool} {digits exp10 : Int} {n : Nat}

theorem exec_encodeDec_of_digits (hv : s.fmt.valid = true) (hn : asNat digits = some n) :
    exec (.encodeDec sign digits exp10) s =
      answer (.bits (encodeFinite s.config s.fmt.e s.fmt.m (bitOf sign) (decimalFrac n exp10))) s := by
  rw [exec, execEncodeDec, withFormat_valid _ _ hv, hn, wellFormedOr_some]

theorem exec_encodeDec_of_negative (hv : s.fmt.valid = true) (hn : asNat digits = none) :
    exec (.encodeDec sign digits exp10) s = raise .malformedInput s := by
  rw [exec, execEncodeDec, withFormat_valid _ _ hv, hn, wellFormedOr_none]

theorem exec_encodeDec_of_no_format (hv : s.fmt.valid = false) :
    exec (.encodeDec sign digits exp10) s = raise .invalidFormat s := by
  rw [exec, execEncodeDec, withFormat_invalid _ _ hv]

end

section
variable (digits : Nat) (exp10 : Int)

theorem decimalFrac_den_pos : 1 ≤ (decimalFrac digits exp10).den := by
  unfold decimalFrac
  split_ifs
  · exact le_rfl
  · exact Nat.one_le_pow _ _ (by norm_num)

/-- The fraction is the decimal value, exactly. -/
theorem magnitude_decimalFrac : Reference.magnitude (decimalFrac digits exp10) = digits * (10 : ℚ) ^ exp10 := by
  unfold decimalFrac Reference.magnitude
  split_ifs with h
  · obtain ⟨k, rfl⟩ := Int.eq_ofNat_of_zero_le h
    simp
  · obtain ⟨k, hk⟩ := Int.eq_ofNat_of_zero_le (by omega : 0 ≤ -exp10)
    rw [← neg_neg exp10, hk]
    simp [div_eq_mul_inv]

theorem decimalFrac_num_eq_zero : (decimalFrac digits exp10).num = 0 ↔ digits = 0 := by
  unfold decimalFrac
  split_ifs <;> simp

end

theorem decodeCommand_encodeDec (sign : Bool) (digits exp10 : Int) :
    decodeCommand ⟨BitVec.ofNat 32 (0x00000031 + bitOf sign * 0x100), digits, exp10⟩ =
      .command (.encodeDec sign digits exp10) := by
  rw [← headerWord_sign]
  exact decodingEncodedCommandGivesItBack (.encodeDec sign digits exp10) rfl

/-- Settles O46: the digits are a natural, and the encoder takes the exact decimal value, or they are negative. -/
theorem encodeDecResult : Obligations.EncodeDecResult := by
  intro s sign digits exp10
  refine ⟨decodeCommand_encodeDec sign digits exp10, fun hv hn => ?_,
    fun hv h => exec_encodeDec_of_negative hv (asNat_of_neg h), exec_encodeDec_of_no_format⟩
  obtain ⟨n, rfl⟩ := Int.eq_ofNat_of_zero_le hn
  refine ⟨_, exec_encodeDec_of_digits hv (asNat_natCast n), ?_⟩
  rw [encoderRefinesTheRationalEncoder _ _ _ _ _ (decimalFrac_den_pos n exp10), magnitude_decimalFrac]
  rfl

/-! ## An exact zero (44_encoder.md R156) -/

/-- Settles O39: both commands encode a zero numerator, which gives `zeroSign` of the header's sign. -/
theorem exactZeroSignFollowsTheParameter : Obligations.ExactZeroSignFollowsTheParameter := by
  intro s sign den exp10 hv hden
  have hrat := exec_encodeRat_of_fraction (sign := sign) hv (asNat_natCast 0)
    (asNat_of_nonneg (by omega : 0 ≤ den)) (by omega)
  have hdec := exec_encodeDec_of_digits (sign := sign) (exp10 := exp10) hv (asNat_natCast 0)
  rw [encodeFinite_of_num_eq_zero _ _ _ _ rfl] at hrat
  rw [encodeFinite_of_num_eq_zero _ _ _ _ ((decimalFrac_num_eq_zero 0 exp10).mpr rfl)] at hdec
  refine ⟨fun hz => ?_, fun hz => ?_⟩
  · rw [zeroSign, if_pos hz] at hrat hdec
    exact ⟨hrat, hdec⟩
  · rw [zeroSign, if_neg (by simp [hz]), Nat.zero_mul] at hrat hdec
    exact ⟨hrat, hdec⟩

/-! ## ENCODE.NF (44_encoder.md R162) -/

section
variable {s : State} {sign : Bool} {k : NonFinite}

theorem exec_encodeNf_infinity (hv : s.fmt.valid = true) (hon : s.config.nonfiniteEnable = true) :
    exec (.encodeNf sign .infinity) s =
      answer (.bits (packFields s.fmt.e s.fmt.m (bitOf sign) (maxExponentField s.fmt.e) 0)) s := by
  rw [exec, execEncodeNf, withFormat_valid _ _ hv, if_neg (by simp [hon])]

theorem exec_encodeNf_nan (hv : s.fmt.valid = true) (hon : s.config.nonfiniteEnable = true) (hm : s.fmt.m ≠ 0) :
    exec (.encodeNf sign .nan) s = answer (.bits (packFields s.fmt.e s.fmt.m (bitOf sign) (maxExponentField s.fmt.e)
      (nanSignificand s.config s.fmt.m))) s := by
  rw [exec, execEncodeNf, withFormat_valid _ _ hv, if_neg (by simp [hon])]
  exact if_neg hm

theorem exec_encodeNf_of_unrepresentable (hv : s.fmt.valid = true)
    (h : s.config.nonfiniteEnable = false ∨ (k = .nan ∧ s.fmt.m = 0)) :
    exec (.encodeNf sign k) s = raise .unrepresentableInput s := by
  rw [exec, execEncodeNf, withFormat_valid _ _ hv]
  by_cases hoff : s.config.nonfiniteEnable = false
  · rw [if_pos hoff]
  · obtain ⟨rfl, hm⟩ := h.resolve_left hoff
    rw [if_neg hoff]
    exact if_pos hm

theorem exec_encodeNf_of_no_format (hv : s.fmt.valid = false) :
    exec (.encodeNf sign k) s = raise .invalidFormat s := by
  rw [exec, execEncodeNf, withFormat_invalid _ _ hv]

end

/-- The NaN significand is not 0 and fits its field (00_scope.md R13). -/
theorem nanSignificand_bounds {cfg : Config} {m : Nat} (hwf : cfg.wf) (hm : m ≠ 0) :
    1 ≤ nanSignificand cfg m ∧ nanSignificand cfg m < 2 ^ m := by
  obtain ⟨-, hlist, -⟩ := hwf
  unfold nanSignificand
  split
  next p hp =>
    have hwidth : p.1 = m := by simpa using List.find?_some hp
    exact hwidth ▸ hlist p (List.mem_of_find?_eq_some hp)
  next => exact ⟨Nat.one_le_two_pow, Nat.pow_lt_pow_right Nat.one_lt_two (by omega)⟩

theorem decodeCommand_encodeNf (sign : Bool) (k : NonFinite) (a b : Int) :
    decodeCommand ⟨BitVec.ofNat 32 (0x00000032 + bitOf sign * 0x100 + (if k = .nan then 0x200 else 0)), a, b⟩ =
      .command (.encodeNf sign k) := by
  have hh : BitVec.ofNat 32 (0x00000032 + bitOf sign * 0x100 + (if k = .nan then 0x200 else 0)) =
      (encode (.encodeNf sign k)).hdr := by
    cases sign <;> cases k <;> rfl
  rw [hh]
  exact decodeCommand_encode_slots rfl (by simp [opcode]) a b

/-- Settles O47: with non-finite support the two kinds, else a refusal. -/
theorem encodeNfResult : Obligations.EncodeNfResult := by
  intro s sign k a b
  refine ⟨decodeCommand_encodeNf sign k a b, fun hv hon hk => ?_, fun hv hon hk hm hwf => ?_,
    exec_encodeNf_of_unrepresentable, exec_encodeNf_of_no_format⟩
  · subst hk
    exact exec_encodeNf_infinity hv hon
  · subst hk
    exact ⟨_, exec_encodeNf_nan hv hon (by omega), rfl, nanSignificand_bounds hwf (by omega)⟩

/-! ## The sign and the width of the layouts (44_encoder.md R166, R168) -/

/-- A command that only responds, with OK and a payload, has answered with it. -/
theorem exec_eq_answer_of_responses {i : Instr} {s t : State} {p : Payload} (hw : writesFormat i = false)
    (hx : exec i s = .next t) (ht : t.responses = s.responses ++ [⟨.ok, p⟩]) : exec i s = answer p s := by
  obtain ⟨st, p', he, -⟩ := exec_onlyResponds s hw
  cases he.symm.trans hx
  obtain ⟨rfl, rfl⟩ : st = .ok ∧ p' = p := by simpa using ht
  exact he

/-- The sign bit of an encoded magnitude: the given sign, but for an exact zero with `NEGZERO_IN` false. -/
theorem encodeFinite_signBit (cfg : Config) (e m sign : Nat) (q : Frac) :
    encodeFinite cfg e m sign q / 2 ^ (e + m) = if q.num = 0 ∧ cfg.negzeroIn = false then 0 else sign := by
  have hpos := Nat.two_pow_pos (e + m)
  obtain h0 | hn := Nat.eq_zero_or_pos q.num
  · rw [encodeFinite_of_num_eq_zero cfg e m sign h0, Nat.mul_div_cancel _ hpos]
    cases hz : cfg.negzeroIn <;> simp [zeroSign, h0, hz]
  · rw [encodeFinite_of_pos cfg e m sign hn, if_neg (by omega)]
    exact (mul_two_pow_add_div_mod sign ((min_le_right _ _).trans_lt (infinity_lt e m))).1

/-- No answer equals a refusal. -/
theorem not_answer_of_raise {i : Instr} {s : State} {st : Status} {p : Payload} (hr : exec i s = raise st s)
    (h : exec i s = answer p s) (hst : st ≠ .ok := by simp) : False :=
  raise_ne_answer hst p s (hr.symm.trans h)

section
variable {s : State} {sign : Bool} {b : Nat}

theorem encodeRat_signBit {num den : Int} (h : exec (.encodeRat sign num den) s = answer (.bits b) s) :
    b / 2 ^ (s.fmt.e + s.fmt.m) = if num = 0 ∧ s.config.negzeroIn = false then 0 else bitOf sign := by
  cases hv : s.fmt.valid with
  | false => exact (not_answer_of_raise (exec_encodeRat_of_no_format hv) h).elim
  | true =>
    cases hn : asNat num with
    | none => exact (not_answer_of_raise (exec_encodeRat_of_negative hv (.inl hn)) h).elim
    | some n =>
      cases hd : asNat den with
      | none => exact (not_answer_of_raise (exec_encodeRat_of_negative hv (.inr hd)) h).elim
      | some d =>
        obtain rfl | hd0 := eq_or_ne d 0
        · exact (not_answer_of_raise (exec_encodeRat_of_zero_den hv hn hd) h).elim
        · cases answer_inj.mp ((exec_encodeRat_of_fraction hv hn hd hd0).symm.trans h)
          simp only [encodeFinite_signBit, asNat_eq_some.mp hn, Int.natCast_eq_zero]

theorem encodeDec_signBit {digits exp10 : Int} (h : exec (.encodeDec sign digits exp10) s = answer (.bits b) s) :
    b / 2 ^ (s.fmt.e + s.fmt.m) = if digits = 0 ∧ s.config.negzeroIn = false then 0 else bitOf sign := by
  cases hv : s.fmt.valid with
  | false => exact (not_answer_of_raise (exec_encodeDec_of_no_format hv) h).elim
  | true =>
    cases hn : asNat digits with
    | none => exact (not_answer_of_raise (exec_encodeDec_of_negative hv hn) h).elim
    | some n =>
      cases answer_inj.mp ((exec_encodeDec_of_digits hv hn).symm.trans h)
      simp only [encodeFinite_signBit, decimalFrac_num_eq_zero, asNat_eq_some.mp hn, Int.natCast_eq_zero]

/-- A non-finite layout has its sign above the exponent field MAXEF. -/
theorem packFields_maxExponentField_signBit (e : Nat) {m sf : Nat} (sign : Nat) (hsf : sf < 2 ^ m) :
    packFields e m sign (maxExponentField e) sf / 2 ^ (e + m) = sign :=
  congrArg RawFields.sign (splitFields_packFields sign (maxExponentField_lt e) hsf)

theorem encodeNf_signBit {k : NonFinite} (hwf : s.config.wf) (h : exec (.encodeNf sign k) s = answer (.bits b) s) :
    b / 2 ^ (s.fmt.e + s.fmt.m) = bitOf sign := by
  cases hv : s.fmt.valid with
  | false => exact (not_answer_of_raise (exec_encodeNf_of_no_format hv) h).elim
  | true =>
    by_cases hbad : s.config.nonfiniteEnable = false ∨ (k = .nan ∧ s.fmt.m = 0)
    · exact (not_answer_of_raise (exec_encodeNf_of_unrepresentable hv hbad) h).elim
    · obtain ⟨hon, hm⟩ := not_or.mp hbad
      cases k with
      | infinity =>
        cases answer_inj.mp ((exec_encodeNf_infinity hv (by simpa using hon)).symm.trans h)
        exact packFields_maxExponentField_signBit _ _ (Nat.two_pow_pos _)
      | nan =>
        have hm' : s.fmt.m ≠ 0 := fun h0 => hm ⟨rfl, h0⟩
        cases answer_inj.mp ((exec_encodeNf_nan hv (by simpa using hon) hm').symm.trans h)
        exact packFields_maxExponentField_signBit _ _ (nanSignificand_bounds hwf hm').2

end

/-- Settles O52: an OK response with a layout is an answer, and each command's answers carry their sign. -/
theorem encodeResultsCarryTheHeaderSign : Obligations.EncodeResultsCarryTheHeaderSign := by
  intro s t sign b hwf ht
  exact ⟨fun _ _ hx => encodeRat_signBit (exec_eq_answer_of_responses rfl hx ht),
    fun _ _ hx => encodeDec_signBit (exec_eq_answer_of_responses rfl hx ht),
    fun _ hx => encodeNf_signBit hwf (exec_eq_answer_of_responses rfl hx ht)⟩

/-- One bit stands above the exponent and the significand. -/
theorem lt_two_pow_of_signBit {e m b sign : Nat} (hs : sign < 2) (h : b / 2 ^ (e + m) = sign) :
    b < 2 ^ totalBits e m := by
  rw [two_pow_totalBits]
  exact (Nat.div_lt_iff_lt_mul (Nat.two_pow_pos _)).mp (h ▸ hs)

theorem encode_answer_lt {i : Instr} {s : State} {b : Nat}
    (hi : (∃ sign num den, i = .encodeRat sign num den) ∨ (∃ sign digits exp10, i = .encodeDec sign digits exp10) ∨
      ∃ sign k, i = .encodeNf sign k) (hwf : s.config.wf) (h : exec i s = answer (.bits b) s) :
    b < 2 ^ totalBits s.fmt.e s.fmt.m := by
  have hbit (p : Prop) [Decidable p] (sign : Bool) : (if p then 0 else bitOf sign) < 2 := by
    split_ifs
    · exact Nat.two_pos
    · exact bitOf_lt_two sign
  obtain ⟨sign, num, den, rfl⟩ | ⟨sign, digits, exp10, rfl⟩ | ⟨sign, k, rfl⟩ := hi
  · exact lt_two_pow_of_signBit (hbit _ sign) (encodeRat_signBit h)
  · exact lt_two_pow_of_signBit (hbit _ sign) (encodeDec_signBit h)
  · exact lt_two_pow_of_signBit (bitOf_lt_two sign) (encodeNf_signBit hwf h)

theorem toHex_length (b t : Nat) : (toHex b t).length = hexWidth t := by simp [toHex, fixedDigits]

/-- `(T + 3) / 4` is `T / 4` rounded up (45_host_text.md R190). -/
theorem hexWidth_eq_ceil (t : Nat) : (hexWidth t : ℤ) = ⌈(t : ℚ) / 4⌉ := by
  have hlo : t ≤ 4 * hexWidth t := by unfold hexWidth; omega
  have hhi : 4 * hexWidth t < t + 4 := by unfold hexWidth; omega
  have hlo' : (t : ℚ) ≤ 4 * hexWidth t := by exact_mod_cast hlo
  have hhi' : (4 : ℚ) * hexWidth t < t + 4 := by exact_mod_cast hhi
  refine (Int.ceil_eq_iff.mpr ⟨?_, ?_⟩).symm <;> push_cast <;> linarith

/-- Settles O50: one sign bit above the fields, and the hex form of any number has the digits of the width. -/
theorem encodeResultsHaveTBits : Obligations.EncodeResultsHaveTBits := by
  intro i s t b hi hwf hx ht
  have hw : writesFormat i = false := by
    obtain ⟨_, _, _, rfl⟩ | ⟨_, _, _, rfl⟩ | ⟨_, _, rfl⟩ := hi <;> rfl
  exact ⟨encode_answer_lt hi hwf (exec_eq_answer_of_responses hw hx ht), by rw [toHex_length, hexWidth_eq_ceil]⟩

end Sys2Proof.Machine
end

section
/-! PROOFS. The text forms of a layout (45_host_text.md R190 to R197): digits written in a base and read back, the
hexadecimal form and the binary form. -/

namespace Sys2Proof.Machine

/-! ## Digit lists of a fixed length -/

section
variable {base : Nat}

theorem digitsValue_append_singleton (base : Nat) (ds : List Nat) (d : Nat) :
    digitsValue base (ds ++ [d]) = digitsValue base ds * base + d := by
  simp [digitsValue]

theorem digitsValue_lt {ds : List Nat} (hb : 1 < base) (h : ∀ d ∈ ds, d < base) :
    digitsValue base ds < base ^ ds.length := by
  rw [digitsValue_eq_ofDigits, ← List.length_reverse]
  exact Nat.ofDigits_lt_base_pow_length hb (by simpa using h)

/-- The `n` lowest digits of `b` in a base, most significant first: what `fixedDigits` writes. -/
def fixedValues (base n b : Nat) : List Nat := (List.range n).map fun p => b / base ^ (n - 1 - p) % base

theorem fixedDigits_eq_map (base n b : Nat) : fixedDigits base n b = (fixedValues base n b).map digitChar := by
  simp [fixedDigits, fixedValues]

@[simp] theorem length_fixedValues (base n b : Nat) : (fixedValues base n b).length = n := by simp [fixedValues]

theorem fixedValues_lt (hb : 0 < base) {n b d : Nat} (h : d ∈ fixedValues base n b) : d < base := by
  obtain ⟨p, -, rfl⟩ := List.mem_map.mp h
  exact Nat.mod_lt _ hb

/-- The last digit is the remainder, and the digits before it are those of the quotient. -/
theorem fixedValues_succ (base n b : Nat) :
    fixedValues base (n + 1) b = fixedValues base n (b / base) ++ [b % base] := by
  simp only [fixedValues, List.range_succ, List.map_append, List.map_singleton, Nat.add_sub_cancel, Nat.sub_self,
    pow_zero, Nat.div_one]
  congr 1
  refine List.map_congr_left fun p hp => ?_
  have hexp : n - p = n - 1 - p + 1 := by have := List.mem_range.mp hp; omega
  rw [hexp, pow_succ', Nat.div_div_eq_div_mul]

theorem digitsValue_fixedValues {n b : Nat} (h : b < base ^ n) : digitsValue base (fixedValues base n b) = b := by
  induction n generalizing b with
  | zero => simp_all [fixedValues, digitsValue]
  | succ n ih =>
    rw [fixedValues_succ, digitsValue_append_singleton, ih (Nat.div_lt_of_lt_mul (by rwa [← pow_succ'])),
      Nat.div_add_mod']

theorem fixedValues_digitsValue {ds : List Nat} (h : ∀ d ∈ ds, d < base) :
    fixedValues base ds.length (digitsValue base ds) = ds := by
  induction ds using List.reverseRecOn with
  | nil => rfl
  | append_singleton ds d ih =>
    have hd : d < base := h d (by simp)
    obtain ⟨hquot, hrem⟩ : (digitsValue base ds * base + d) / base = digitsValue base ds ∧
        (digitsValue base ds * base + d) % base = d :=
      (Nat.div_mod_unique (by omega)).mpr ⟨by ring, hd⟩
    rw [List.length_append, List.length_singleton, fixedValues_succ, digitsValue_append_singleton, hquot, hrem,
      ih fun x hx => h x (by simp [hx])]

/-- A reader given digit by digit reads the strings of its digits, each digit to its value. -/
theorem readDigits_eq_some_iff_of_digits {digit : Char → Option Nat} {p : Char → Prop} {f : Char → Nat}
    (h : ∀ c d, digit c = some d ↔ p c ∧ d = f c) {str : Text} {ds : List Nat} :
    readDigits digit str = some ds ↔ (∀ c ∈ str, p c) ∧ ds = str.map f := by
  rw [readDigits_eq_some]
  induction str generalizing ds with
  | nil => simp
  | cons c rest ih => cases ds <;> simp [h, ih]; tauto

/-- A reader that inverts `digitChar` below the base reads the written digits. -/
theorem readDigits_fixedDigits {digit : Char → Option Nat} (hb : 0 < base)
    (hdigit : ∀ d < base, digit (digitChar d) = some d) (n b : Nat) :
    readDigits digit (fixedDigits base n b) = some (fixedValues base n b) := by
  rw [readDigits_eq_some, fixedDigits_eq_map, List.map_map]
  exact List.map_congr_left fun d hd => hdigit d (fixedValues_lt hb hd)

end

/-! ## The hexadecimal form (45_host_text.md R190 to R193, R196) -/

theorem hexDigit_digitChar : ∀ d < 16, hexDigit (digitChar d) = some d := by decide

theorem digitChar_mem_hex : ∀ d < 16, digitChar d ∈ "0123456789ABCDEF".toList := by decide

/-- A layout fits its hex digits. -/
theorem two_pow_le_sixteen_pow_hexWidth (t : Nat) : 2 ^ t ≤ 16 ^ hexWidth t := by
  rw [show 16 = 2 ^ 4 from rfl, ← pow_mul]
  exact Nat.pow_le_pow_right Nat.two_pos (by unfold hexWidth; omega)

theorem fromHex_eq_value_iff {str : Text} {t b : Nat} : fromHex str t = .value b ↔
    str ≠ [] ∧ ∃ ds, readDigits hexDigit str = some ds ∧ digitsValue 16 ds = b ∧ b < 2 ^ t := by
  unfold fromHex
  by_cases hnil : str = []
  · simp [hnil]
  · cases readDigits hexDigit str with
    | none => simp [hnil]
    | some ds =>
      by_cases hwide : 2 ^ t ≤ digitsValue 16 ds
      · simp [hnil, hwide]
        omega
      · simp [hnil, hwide]
        omega

/-- What `fromHex` does not accept is MalformedInput. -/
theorem fromHex_total (str : Text) (t : Nat) :
    (∃ b, fromHex str t = .value b) ∨ fromHex str t = .error .malformedInput := by
  unfold fromHex
  by_cases hnil : str = []
  · exact .inr (if_pos hnil)
  · cases readDigits hexDigit str with
    | none => exact .inr (if_neg hnil)
    | some ds =>
      by_cases hwide : 2 ^ t ≤ digitsValue 16 ds
      · exact .inr ((if_neg hnil).trans (if_pos hwide))
      · exact .inl ⟨_, (if_neg hnil).trans (if_neg hwide)⟩

/-- Settles O53: the digits written are read back as they are, and spell the layout since it fits them. -/
theorem hexFormsReadBack : Obligations.HexFormsReadBack := by
  intro t ht
  refine ⟨fun b hb => ⟨?_, toHex_length b t, fun c hc => ?_⟩, fun str b h => ?_⟩
  · have hlen := toHex_length b t
    have hnil : toHex b t ≠ [] := fun h => by simp [h, hexWidth] at hlen; omega
    exact fromHex_eq_value_iff.mpr ⟨hnil, _, readDigits_fixedDigits (by omega) hexDigit_digitChar _ b,
      digitsValue_fixedValues (hb.trans_le (two_pow_le_sixteen_pow_hexWidth t)), hb⟩
  · rw [toHex, fixedDigits_eq_map] at hc
    obtain ⟨d, hd, rfl⟩ := List.mem_map.mp hc
    exact digitChar_mem_hex d (fixedValues_lt (by omega) hd)
  · obtain ⟨-, ds, -, -, hlt⟩ := fromHex_eq_value_iff.mp h
    exact hlt

/-! ### Letter case and leading zeros -/

/-- The value of a hex digit in either case: its place among the lower case digits (45_host_text.md R191). -/
def hexValue (c : Char) : Nat := "0123456789abcdef".toList.idxOf c.toLower

/-- The hex digits in either case (45_host_text.md R191). -/
def hexChars : Text := "0123456789abcdefABCDEF".toList

theorem hexDigit_of_mem {c : Char} (h : c ∈ hexChars) : hexDigit c = some (hexValue c) :=
  of_decide_eq_true <| List.all_eq_true.mp
    (by decide : (hexChars.all fun c => decide (hexDigit c = some (hexValue c))) = true) c h

/-- What holds of the characters of a range, by number, holds of what lies between its ends. -/
theorem of_between {p : Char → Prop} {lo hi c : Char} (hc : between lo hi c = true)
    (hp : ∀ n ∈ List.range' lo.toNat (hi.toNat + 1 - lo.toNat), p (Char.ofNat n)) : p c := by
  simp only [between, Bool.and_eq_true, decide_eq_true_eq] at hc
  obtain ⟨hlo, hhi⟩ := hc
  exact Char.ofNat_toNat c ▸ hp c.toNat (List.mem_range'_1.mpr ⟨hlo, by omega⟩)

theorem mem_hexChars_of_hexDigit {c : Char} {d : Nat} (h : hexDigit c = some d) : c ∈ hexChars := by
  unfold hexDigit at h
  split_ifs at h with hdec hlow hup
  · exact of_between (p := (· ∈ hexChars)) hdec (by decide)
  · exact of_between (p := (· ∈ hexChars)) hlow (by decide)
  · exact of_between (p := (· ∈ hexChars)) hup (by decide)

theorem hexDigit_eq_some_iff {c : Char} {d : Nat} : hexDigit c = some d ↔ c ∈ hexChars ∧ d = hexValue c := by
  constructor
  · intro h
    have hmem := mem_hexChars_of_hexDigit h
    exact ⟨hmem, Option.some_inj.mp (h.symm.trans (hexDigit_of_mem hmem))⟩
  · rintro ⟨hmem, rfl⟩
    exact hexDigit_of_mem hmem

theorem hexDigit_toLower (c : Char) : hexDigit c.toLower = hexDigit c := by
  cases hupper : between 'A' 'Z' c with
  | true => exact of_between (p := fun c => hexDigit c.toLower = hexDigit c) hupper (by decide)
  | false =>
    have hnot : ¬ c.isUpper := by
      simpa [Char.isUpper, between, UInt32.le_iff_toNat_le] using hupper
    rw [Char.toLower_eq_of_not_isUpper hnot]

theorem hexDigit_toUpper (c : Char) : hexDigit c.toUpper = hexDigit c := by
  rw [← hexDigit_toLower, Char.toLower_toUpper_eq_toLower, hexDigit_toLower]

/-- A string reads as a layout exactly when it is a hex number in range, and then as that number. -/
theorem fromHex_eq_value_iff_spelled {str : Text} {t b : Nat} : fromHex str t = .value b ↔
    (str ≠ [] ∧ (∀ c ∈ str, c ∈ hexChars) ∧
      Nat.ofDigits 16 (str.map hexValue).reverse < 2 ^ t) ∧ Nat.ofDigits 16 (str.map hexValue).reverse = b := by
  simp only [fromHex_eq_value_iff, readDigits_eq_some_iff_of_digits fun _ _ => hexDigit_eq_some_iff,
    ← digitsValue_eq_ofDigits]
  constructor
  · rintro ⟨hnil, _, ⟨hmem, rfl⟩, rfl, hlt⟩
    exact ⟨⟨hnil, hmem, hlt⟩, rfl⟩
  · rintro ⟨⟨hnil, hmem, hlt⟩, rfl⟩
    exact ⟨hnil, _, ⟨hmem, rfl⟩, rfl, hlt⟩

theorem fromHex_map {f : Char → Char} (h : ∀ c, hexDigit (f c) = hexDigit c) (str : Text) (t : Nat) :
    fromHex (str.map f) t = fromHex str t := by
  simp only [fromHex, readDigits_map h, List.map_eq_nil_iff]

theorem readDigits_hexDigit_zero_cons (str : Text) :
    readDigits hexDigit ('0' :: str) = (readDigits hexDigit str).map (0 :: ·) := by
  have hzero : hexDigit '0' = some 0 := by decide
  cases h : readDigits hexDigit str <;> simp [readDigits, hzero, h]

theorem fromHex_zero_cons {str : Text} (hnil : str ≠ []) (t : Nat) : fromHex ('0' :: str) t = fromHex str t := by
  unfold fromHex
  rw [readDigits_hexDigit_zero_cons, if_neg (List.cons_ne_nil _ _), if_neg hnil]
  cases readDigits hexDigit str <;> simp

/-- Settles O54: what is no hex number in range is refused, and case and a leading zero change no digit's value. -/
theorem hexReadingIgnoresCaseAndLeadingZeros : Obligations.HexReadingIgnoresCaseAndLeadingZeros := by
  intro str t
  refine ⟨fun h => fromHex_eq_value_iff_spelled.mpr ⟨h, rfl⟩, fun h => ?_, fromHex_map hexDigit_toLower str t,
    fromHex_map hexDigit_toUpper str t, fun hnil => fromHex_zero_cons hnil t⟩
  exact (fromHex_total str t).resolve_left fun ⟨b, hb⟩ => h (fromHex_eq_value_iff_spelled.mp hb).1

/-! ## The binary form (45_host_text.md R194, R195) -/

theorem binaryDigit_digitChar : ∀ d < 2, binaryDigit (digitChar d) = some d := by decide

theorem binaryDigit_eq_some_iff {c : Char} {d : Nat} :
    binaryDigit c = some d ↔ (c = '0' ∨ c = '1') ∧ d = c.toNat - 48 := by
  unfold binaryDigit
  split_ifs with h0 h1
  · simp [h0, eq_comm]
  · simp [h1, eq_comm]
  · simp [h0, h1]

theorem digitChar_bit {c : Char} (h : c = '0' ∨ c = '1') : c.toNat - 48 < 2 ∧ digitChar (c.toNat - 48) = c := by
  obtain rfl | rfl := h <;> decide

theorem toBitString_length (b t : Nat) : (toBitString b t).length = t := by simp [toBitString, fixedDigits]

theorem fromBitString_eq_value_iff {str : Text} {t b : Nat} : fromBitString str t = .value b ↔
    str.length = t ∧ ∃ ds, readDigits binaryDigit str = some ds ∧ digitsValue 2 ds = b := by
  unfold fromBitString
  by_cases hlen : str.length = t
  · cases readDigits binaryDigit str <;> simp [hlen]
  · simp [hlen]

/-- A binary string that is read is what its digits are written as. -/
theorem eq_map_digitChar_of_readDigits {str : Text} {ds : List Nat} (h : readDigits binaryDigit str = some ds) :
    (∀ d ∈ ds, d < 2) ∧ str = ds.map digitChar := by
  obtain ⟨hbit, rfl⟩ := (readDigits_eq_some_iff_of_digits fun _ _ => binaryDigit_eq_some_iff).mp h
  refine ⟨List.forall_mem_map.mpr fun c hc => (digitChar_bit (hbit c hc)).1, ?_⟩
  rw [List.map_map]
  exact ((List.map_congr_left fun c hc => (digitChar_bit (hbit c hc)).2).trans (List.map_id str)).symm

/-- Settles O55: the digits written are those read, in both directions. -/
theorem binaryFormsAreInverse : Obligations.BinaryFormsAreInverse := by
  intro t
  refine ⟨fun b hb => ⟨toBitString_length b t, ?_⟩, fun str b h => ?_⟩
  · exact fromBitString_eq_value_iff.mpr ⟨toBitString_length b t, _,
      readDigits_fixedDigits (by omega) binaryDigit_digitChar t b, digitsValue_fixedValues hb⟩
  · obtain ⟨rfl, ds, hread, rfl⟩ := fromBitString_eq_value_iff.mp h
    obtain ⟨hbit, rfl⟩ := eq_map_digitChar_of_readDigits hread
    rw [List.length_map, toBitString, fixedDigits_eq_map, fixedValues_digitsValue hbit]
    exact ⟨digitsValue_lt (by omega) hbit, rfl⟩

end Sys2Proof.Machine
end

section
/-! PROOFS. Decimal digits, the decode report with the decimal form of its numbers, and the enumerator (45_host_text.md
R204 to R217). -/

namespace Sys2Proof.Machine

/-! ## Decimal digits (45_host_text.md R198, R208) -/

theorem isDigit_iff {c : Char} : isDigit c = true ↔ '0'.toNat ≤ c.toNat ∧ c.toNat ≤ '9'.toNat := by
  simp [isDigit, between]

theorem digits_iff {t : Text} : Grammar.Digits t ↔ t ≠ [] ∧ ∀ c ∈ t, isDigit c = true := by
  simp only [Grammar.Digits, isDigit_iff]

/-- The parser's number of a digit string is the one it spells. -/
theorem digitsNat_eq_spelled (t : Text) : digitsNat t = Grammar.spelled t := digitsValue_eq_ofDigits 10 _

theorem isDigit_digitChar : ∀ d < 10, isDigit (digitChar d) = true := by decide

theorem digitChar_toNat_sub : ∀ d < 10, (digitChar d).toNat - '0'.toNat = d := by decide

section
variable {ds : List Nat} (h : ∀ d ∈ ds, d < 10)
include h

theorem digits_map_digitChar (hnil : ds ≠ []) : Grammar.Digits (ds.map digitChar) :=
  digits_iff.mpr ⟨by simpa using hnil, List.forall_mem_map.mpr fun d hd => isDigit_digitChar d (h d hd)⟩

/-- Digits written as characters spell the number of the digits. -/
theorem spelled_map_digitChar : Grammar.spelled (ds.map digitChar) = Nat.ofDigits 10 ds.reverse := by
  rw [Grammar.spelled, List.map_map]
  congr 2
  exact (List.map_congr_left fun d hd => digitChar_toNat_sub d (h d hd)).trans (List.map_id ds)

end

/-! ## The decimal form (45_host_text.md R208) -/

/-- The decimal digits of a natural, most significant first, without leading zeros. -/
def decimalValues (n : Nat) : List Nat := if n = 0 then [0] else (Nat.digits 10 n).reverse

/-- With fuel for its digits, a positive number is written as the library's digits. -/
theorem decimalDigits_eq {fuel n : Nat} (acc : Text) (h0 : n ≠ 0) (hfuel : n < 10 ^ fuel) :
    decimalDigits fuel n acc = (Nat.digits 10 n).reverse.map digitChar ++ acc := by
  induction fuel generalizing n acc with
  | zero => simp at hfuel; omega
  | succ fuel ih =>
    unfold decimalDigits
    split_ifs with hlt
    · simp [Nat.digits_of_lt 10 n h0 hlt]
    · have hquot : n / 10 < 10 ^ fuel := Nat.div_lt_of_lt_mul (by rwa [← pow_succ'])
      rw [ih _ (by omega) hquot, Nat.digits_def' (by omega) (Nat.pos_of_ne_zero h0)]
      simp

theorem natText_eq (n : Nat) : natText n = (decimalValues n).map digitChar := by
  unfold natText decimalValues
  split_ifs with h0
  · subst h0
    rfl
  · have hfuel : n < 10 ^ (n.log2 + 1) :=
      (lt_two_pow_log2_succ n).trans_le (Nat.pow_le_pow_left (by omega) _)
    rw [decimalDigits_eq [] h0 hfuel, List.append_nil]

theorem decimalValues_lt {n : Nat} : ∀ d ∈ decimalValues n, d < 10 := by
  unfold decimalValues
  split_ifs
  · simp
  · exact fun d hd => Nat.digits_lt_base (by omega) (List.mem_reverse.mp hd)

theorem decimalValues_ne_nil (n : Nat) : decimalValues n ≠ [] := by
  unfold decimalValues
  split_ifs with h0
  · simp
  · exact List.reverse_ne_nil_iff.mpr (Nat.digits_ne_nil_iff_ne_zero.mpr h0)

theorem ofDigits_decimalValues (n : Nat) : Nat.ofDigits 10 (decimalValues n).reverse = n := by
  unfold decimalValues
  split_ifs with h0
  · simp [h0]
  · rw [List.reverse_reverse, Nat.ofDigits_digits]

theorem digits_natText (n : Nat) : Grammar.Digits (natText n) :=
  natText_eq n ▸ digits_map_digitChar decimalValues_lt (decimalValues_ne_nil n)

theorem spelled_natText (n : Nat) : Grammar.spelled (natText n) = n := by
  rw [natText_eq, spelled_map_digitChar decimalValues_lt, ofDigits_decimalValues]

/-- The first digit of a positive number is the last of the library's digits, which is not 0. -/
theorem natText_head?_ne {n : Nat} (h0 : n ≠ 0) : (natText n).head? ≠ some '0' := by
  have hlast := Nat.getLast_digit_ne_zero 10 h0
  rw [natText_eq, decimalValues, if_neg h0, List.head?_map, List.head?_reverse,
    List.getLast?_eq_getLast_of_ne_nil (Nat.digits_ne_nil_iff_ne_zero.mpr h0), Option.map_some, ne_eq, Option.some_inj]
  exact fun h => hlast ((by decide : ∀ d < 10, digitChar d = '0' → d = 0) _
    (Nat.digits_lt_base (by omega) (List.getLast_mem _)) h)

/-- Settles O58: the digits of a natural, and for an integer those of its absolute value. -/
theorem decimalFormSpellsTheNumber : Obligations.DecimalFormSpellsTheNumber := by
  refine ⟨fun n => ⟨digits_natText n, spelled_natText n, natText_head?_ne⟩, fun x => ⟨natText x.natAbs,
    digits_natText _, spelled_natText _, fun hx => natText_head?_ne (Int.natAbs_ne_zero.mpr hx), ?_, ?_⟩⟩
  · exact fun hx => if_neg (not_lt.mpr hx)
  · exact fun hx => if_pos hx

/-! ## The report (45_host_text.md R204 to R208) -/

/-- The name of the class, by the tests of 42_classifier.md R121. -/
theorem className_classCode_classOf (e ef sf : Nat) : className (classCode (classOf e ef sf)) = some
    (if ef = 0 ∧ sf = 0 then "ZERO".toList else if ef = 0 then "SUBNORMAL".toList
      else if ef < 2 ^ e - 1 then "NORMAL".toList else if sf = 0 then "INFINITY".toList else "NAN".toList) := by
  rw [classCode_classOf_nat, maxExponentField]
  split_ifs <;> rfl

/-- The keys every report has, with their values. -/
def layoutEntries (t b : Nat) (name : Text) (f : RawFields) : Report :=
  [("hex".toList, .string (toHex b t)), ("bits".toList, .string (toBitString b t)), ("type".toList, .string name),
    ("sign".toList, .integer f.sign), ("exponent".toList, .integer f.ef), ("significand".toList, .integer f.sf)]

theorem report_decodeLayout (e m t b : Nat) {name : Text}
    (hname : className (classCode (classOf e (splitFields e m b).ef (splitFields e m b).sf)) = some name) :
    report t b ⟨.ok, decodeLayout e m b⟩ = some
      (layoutEntries t b name (splitFields e m b) ++ fractionEntry (decodedValue e m (splitFields e m b))) := by
  rw [decodeLayout_eq, report, hname]
  rfl

theorem map_fst_layoutEntries (t b : Nat) (name : Text) (f : RawFields) : (layoutEntries t b name f).map Prod.fst =
    ["hex".toList, "bits".toList, "type".toList, "sign".toList, "exponent".toList, "significand".toList] := rfl

theorem mem_layoutEntries (t b : Nat) (name : Text) (f : RawFields) :
    ("hex".toList, .string (toHex b t)) ∈ layoutEntries t b name f ∧
    ("bits".toList, .string (toBitString b t)) ∈ layoutEntries t b name f ∧
    ("type".toList, .string name) ∈ layoutEntries t b name f ∧
    ("sign".toList, .integer f.sign) ∈ layoutEntries t b name f ∧
    ("exponent".toList, .integer f.ef) ∈ layoutEntries t b name f ∧
    ("significand".toList, .integer f.sf) ∈ layoutEntries t b name f := by
  simp [layoutEntries]

theorem mem_layoutEntries_append_fractionEntry {t b : Nat} {name num den : Text} {f : RawFields}
    {v : Option (Int × Nat)} :
    ("fraction".toList, ReportValue.fraction num den) ∈ layoutEntries t b name f ++ fractionEntry v ↔
      ∃ x, v = some x ∧ num = intText x.1 ∧ den = natText x.2 := by
  cases v with
  | none => simp [layoutEntries, fractionEntry]
  | some x => simp [layoutEntries, fractionEntry]

/-- The value of a layout is there exactly below MAXEF. -/
theorem decodedValue_eq {e : Nat} (m : Nat) (f : RawFields) (he : 1 ≤ e) :
    decodedValue e m f = if f.ef < 2 ^ e - 1 then some (valueOf e m f) else none := by
  simp only [decodedValue, finite_classOf _ _ he, maxExponentField]

/-- Settles O57: the six keys of every layout, and the fraction of a decoded value, which is there below MAXEF. -/
theorem reportHasFractionExactlyForFiniteValues : Obligations.ReportHasFractionExactlyForFiniteValues := by
  intro e m b he _
  obtain ⟨hhex, hbits, htype, hsign, hexponent, hsignificand⟩ := mem_layoutEntries (1 + e + m) b _ (splitFields e m b)
  refine ⟨_, report_decodeLayout e m _ b (className_classCode_classOf e _ _), ?_, List.mem_append_left _ hhex,
    List.mem_append_left _ hbits, List.mem_append_left _ htype, List.mem_append_left _ hsign,
    List.mem_append_left _ hexponent, List.mem_append_left _ hsignificand, fun num den => ?_⟩
  · rw [List.map_append, map_fst_layoutEntries, decodedValue_eq m _ he]
    by_cases hfin : (splitFields e m b).ef < 2 ^ e - 1
    · rw [if_pos hfin, if_pos hfin]
      rfl
    · rw [if_neg hfin, if_neg hfin]
      rfl
  · rw [mem_layoutEntries_append_fractionEntry, decodedValue_eq m _ he]
    by_cases hfin : (splitFields e m b).ef < 2 ^ e - 1 <;> simp [hfin]

/-! ## The enumerator (45_host_text.md R215 to R217) -/

theorem lt_of_mem_enumerate {cfg : Config} {t b : Nat} {limit : Option Nat} (h : b ∈ enumerate cfg t limit) :
    b < 2 ^ t :=
  (List.mem_range.mp h).trans_le (min_le_right _ _)

theorem enumerateChunk_append (start j k : Nat) :
    enumerateChunk start j ++ enumerateChunk (start + j) k = enumerateChunk start (j + k) :=
  List.range'_append_1

theorem enumerate_eq_chunk (cfg : Config) (t : Nat) (limit : Option Nat) :
    enumerate cfg t limit = enumerateChunk 0 (enumerateCount cfg t limit) := List.range_eq_range'

/-- Settles O59: what the enumerator yields is below `2^T`, so a layout, and the chunks are consecutive ranges. -/
theorem enumeratorYieldsDecodablePrefix : Obligations.EnumeratorYieldsDecodablePrefix := by
  refine ⟨fun s limit hv => ⟨?_, fun b hb => ⟨_, exec_decode_of_layout (b := b) hv ?_⟩⟩, fun cfg t k limit hk => ?_⟩
  · cases limit <;> rfl
  · exact inWidth_eq_some.mpr ⟨rfl, lt_of_mem_enumerate hb⟩
  · have hchunks := enumerateChunk_append 0 k (enumerateCount cfg t limit - k)
    rwa [Nat.zero_add, Nat.add_sub_cancel' hk, ← enumerate_eq_chunk] at hchunks

end Sys2Proof.Machine
end

section
/-! PROOFS. The decimal parser (45_host_text.md R198 to R201): each of its readers against the part of the grammar it
reads, then the parser against the grammar. -/

namespace Sys2Proof.Machine

open Grammar

/-! ## The sign -/

/-- The text has no sign of its own: it does not begin with `+` or `-`. -/
def Unsigned (t : Text) : Prop := t.head? ≠ some '-' ∧ t.head? ≠ some '+'

theorem readSign_of_unsigned {t : Text} (h : Unsigned t) : readSign t = (false, t) := by
  unfold readSign
  split
  · simp [Unsigned] at h
  · simp [Unsigned] at h
  · rfl

theorem readSign_append {sg t : Text} {neg : Bool} (hs : Sign sg neg) (h : Unsigned t) :
    readSign (sg ++ t) = (neg, t) := by
  cases hs with
  | absent => exact readSign_of_unsigned h
  | plus => rfl
  | minus => rfl

/-- What is read as a sign is one. -/
theorem readSign_spec (t : Text) : ∃ sg, t = sg ++ (readSign t).2 ∧ Sign sg (readSign t).1 := by
  unfold readSign
  split
  · exact ⟨_, rfl, .minus⟩
  · exact ⟨_, rfl, .plus⟩
  · exact ⟨_, rfl, .absent⟩

/-- A sign before a text of an unsigned kind is found by `readSign`. -/
theorem exists_sign_iff {p : Text → Prop} (hp : ∀ t, p t → Unsigned t) {str : Text} {neg : Bool} :
    (∃ sg body, str = sg ++ body ∧ Sign sg neg ∧ p body) ↔ (readSign str).1 = neg ∧ p (readSign str).2 := by
  constructor
  · rintro ⟨sg, body, rfl, hs, hbody⟩
    rw [readSign_append hs (hp body hbody)]
    exact ⟨rfl, hbody⟩
  · rintro ⟨rfl, hbody⟩
    obtain ⟨sg, hstr, hs⟩ := readSign_spec str
    exact ⟨sg, _, hstr, hs, hbody⟩

/-! ## Digits -/

/-- The text does not begin with a digit. -/
def NoDigitFirst (t : Text) : Prop := ∀ c ∈ t.head?, isDigit c = false

section
variable {ds rest : Text} (hds : ∀ c ∈ ds, isDigit c = true) (hrest : NoDigitFirst rest)
include hds hrest

theorem takeWhile_digits_append : (ds ++ rest).takeWhile isDigit = ds := by
  rw [List.takeWhile_append_of_pos hds]
  cases rest with
  | nil => simp
  | cons c rest => simp [hrest c rfl]

theorem dropWhile_digits_append : (ds ++ rest).dropWhile isDigit = rest := by
  rw [List.dropWhile_append_of_pos hds]
  cases rest with
  | nil => simp
  | cons c rest => simp [hrest c rfl]

end

theorem digits_takeWhile {t : Text} (h : t.takeWhile isDigit ≠ []) : Digits (t.takeWhile isDigit) :=
  digits_iff.mpr ⟨h, fun _ => List.mem_takeWhile_imp⟩

theorem exists_cons_of_digits {t : Text} (h : Digits t) : ∃ c rest, t = c :: rest ∧ isDigit c = true := by
  obtain ⟨hnil, hdig⟩ := digits_iff.mp h
  obtain ⟨c, rest, rfl⟩ := List.exists_cons_of_ne_nil hnil
  exact ⟨c, rest, rfl, hdig c (by simp)⟩

theorem unsigned_cons {c : Char} (t : Text) (hminus : c ≠ '-') (hplus : c ≠ '+') : Unsigned (c :: t) :=
  ⟨by simpa using hminus, by simpa using hplus⟩

theorem ne_of_isDigit {c d : Char} (hc : isDigit c = true) (hd : isDigit d = false) : c ≠ d :=
  fun h => by simp [← h, hc] at hd

theorem unsigned_of_digits {t : Text} (h : Digits t) : Unsigned t := by
  obtain ⟨c, rest, rfl, hc⟩ := exists_cons_of_digits h
  exact unsigned_cons rest (ne_of_isDigit hc (by decide)) (ne_of_isDigit hc (by decide))

/-! ## The mantissa -/

theorem readMantissa_of_point {t rest : Text} (h : t.dropWhile isDigit = '.' :: rest) :
    readMantissa t = if t.takeWhile isDigit = [] ∧ rest.takeWhile isDigit = [] then none
      else some (t.takeWhile isDigit, rest.takeWhile isDigit, rest.dropWhile isDigit) := by
  simp only [readMantissa, h]

theorem readMantissa_of_no_point {t : Text} (h : (t.dropWhile isDigit).head? ≠ some '.') :
    readMantissa t = if t.takeWhile isDigit = [] then none
      else some (t.takeWhile isDigit, [], t.dropWhile isDigit) := by
  unfold readMantissa
  split
  · next heq => simp [heq] at h
  · rfl

/-- What is read as a mantissa is one. -/
theorem mantissa_of_readMantissa {t i f rest : Text} (h : readMantissa t = some (i, f, rest)) :
    ∃ mant, t = mant ++ rest ∧ Mantissa mant i f := by
  have ht : t = t.takeWhile isDigit ++ t.dropWhile isDigit := List.takeWhile_append_dropWhile.symm
  by_cases hpoint : (t.dropWhile isDigit).head? = some '.'
  · obtain ⟨r, hr⟩ := List.head?_eq_some_iff.mp hpoint
    have hsplit : r = r.takeWhile isDigit ++ r.dropWhile isDigit := List.takeWhile_append_dropWhile.symm
    rw [readMantissa_of_point hr] at h
    split_ifs at h with hnone
    obtain ⟨rfl, rfl, rfl⟩ : _ ∧ _ ∧ _ := by simpa using h
    refine ⟨t.takeWhile isDigit ++ '.' :: r.takeWhile isDigit, ?_, ?_⟩
    · rw [List.append_assoc, List.cons_append, ← hsplit, ← hr, ← ht]
    · by_cases hi : t.takeWhile isDigit = []
      · rw [hi]
        exact .fraction _ (digits_takeWhile fun hf => hnone ⟨hi, hf⟩)
      · by_cases hf : r.takeWhile isDigit = []
        · rw [hf]
          exact .point _ (digits_takeWhile hi)
        · exact .both _ _ (digits_takeWhile hi) (digits_takeWhile hf)
  · rw [readMantissa_of_no_point hpoint] at h
    split_ifs at h with hi
    obtain ⟨rfl, rfl, rfl⟩ : _ ∧ _ ∧ _ := by simpa using h
    exact ⟨_, ht, .whole _ (digits_takeWhile hi)⟩

theorem readMantissa_point_append {i f rest : Text} (hi : ∀ c ∈ i, isDigit c = true) (hf : ∀ c ∈ f, isDigit c = true)
    (hne : i ≠ [] ∨ f ≠ []) (hrest : NoDigitFirst rest) :
    readMantissa (i ++ '.' :: (f ++ rest)) = some (i, f, rest) := by
  have hpoint : NoDigitFirst ('.' :: (f ++ rest)) := by rintro _ ⟨⟩; decide
  rw [readMantissa_of_point (dropWhile_digits_append hi hpoint), takeWhile_digits_append hi hpoint,
    takeWhile_digits_append hf hrest, dropWhile_digits_append hf hrest, if_neg (not_and_or.mpr hne)]

/-- A mantissa is read in full when neither a digit nor a point follows it. -/
theorem readMantissa_append {mant i f rest : Text} (h : Mantissa mant i f) (hrest : NoDigitFirst rest)
    (hpoint : rest.head? ≠ some '.') : readMantissa (mant ++ rest) = some (i, f, rest) := by
  have hempty : ∀ c ∈ ([] : Text), isDigit c = true := by simp
  cases h with
  | whole i hi =>
    obtain ⟨hne, hdig⟩ := digits_iff.mp hi
    have hdrop := dropWhile_digits_append hdig hrest
    rw [readMantissa_of_no_point (by rwa [hdrop]), hdrop, takeWhile_digits_append hdig hrest, if_neg hne]
  | point i hi =>
    obtain ⟨hne, hdig⟩ := digits_iff.mp hi
    simpa using readMantissa_point_append hdig hempty (.inl hne) hrest
  | both i f hi hf =>
    obtain ⟨hne, hdig⟩ := digits_iff.mp hi
    simpa using readMantissa_point_append hdig (digits_iff.mp hf).2 (.inl hne) hrest
  | fraction f hf =>
    obtain ⟨hne, hdig⟩ := digits_iff.mp hf
    simpa using readMantissa_point_append hempty hdig (.inr hne) hrest

theorem exists_cons_of_mantissa {mant i f : Text} (h : Mantissa mant i f) :
    ∃ c rest, mant = c :: rest ∧ (isDigit c = true ∨ c = '.') := by
  have hdigits {i : Text} (hi : Digits i) (t : Text) : ∃ c rest, i ++ t = c :: rest ∧ (isDigit c = true ∨ c = '.') := by
    obtain ⟨c, rest, rfl, hc⟩ := exists_cons_of_digits hi
    exact ⟨c, rest ++ t, rfl, .inl hc⟩
  cases h with
  | whole i hi => simpa using hdigits hi []
  | point i hi => exact hdigits hi ['.']
  | both i f hi hf => exact hdigits hi ('.' :: f)
  | fraction f hf => exact ⟨'.', f, rfl, .inr rfl⟩

/-! ## The exponent -/

theorem readExponent_cons {c : Char} (rest : Text) (hc : c = 'e' ∨ c = 'E') : readExponent (c :: rest) =
    if (readSign rest).2 ≠ [] ∧ (readSign rest).2.all isDigit then
      some (if (readSign rest).1 then -(digitsNat (readSign rest).2 : Int) else digitsNat (readSign rest).2)
    else none := by
  simp only [readExponent, if_pos hc]

/-- Exactly the exponents of the grammar are read, with their values. -/
theorem readExponent_eq_some_iff {t : Text} {x : Int} : readExponent t = some x ↔ Exponent t x := by
  constructor
  · intro h
    cases t with
    | nil =>
      cases h
      exact .absent
    | cons c rest =>
      by_cases hc : c = 'e' ∨ c = 'E'
      · rw [readExponent_cons rest hc] at h
        by_cases hdig : (readSign rest).2 ≠ [] ∧ (readSign rest).2.all isDigit
        · obtain ⟨sg, hrest, hs⟩ := readSign_spec rest
          have hexp := Exponent.present c sg _ _ hc hs (digits_iff.mpr (by simpa [List.all_eq_true] using hdig))
          rw [← hrest, ← digitsNat_eq_spelled] at hexp
          rw [if_pos hdig, Option.some_inj] at h
          exact h ▸ hexp
        · rw [if_neg hdig] at h
          cases h
      · simp [readExponent, hc] at h
  · rintro (_ | ⟨c, sg, neg, ds, hc, hs, hds⟩)
    · rfl
    · have hdig : ds ≠ [] ∧ ds.all isDigit = true := by simpa [List.all_eq_true] using digits_iff.mp hds
      rw [readExponent_cons _ hc, readSign_append hs (unsigned_of_digits hds), if_pos hdig, digitsNat_eq_spelled]

theorem head_of_exponent {t : Text} {x : Int} (h : Exponent t x) : NoDigitFirst t ∧ t.head? ≠ some '.' := by
  obtain _ | ⟨c, sg, neg, ds, hc, -, -⟩ := h
  · simp [NoDigitFirst]
  · obtain rfl | rfl := hc <;> simp [NoDigitFirst] <;> decide

/-! ## Decimals and non-finite tokens -/

/-- Exactly the decimals of the grammar without a sign are read, with their digits and exponents. -/
theorem unsignedDecimal_eq_some_iff {t : Text} {digits : Nat} {exp10 : Int} :
    unsignedDecimal t = some (digits, exp10) ↔ ∃ mant ex i f x0, t = mant ++ ex ∧ Mantissa mant i f ∧ Exponent ex x0 ∧
      digits = spelled (i ++ f) ∧ exp10 = x0 - f.length := by
  constructor
  · intro h
    unfold unsignedDecimal at h
    split at h
    · cases h
    · next i f ex hmant =>
      obtain ⟨mant, rfl, hm⟩ := mantissa_of_readMantissa hmant
      split at h
      · cases h
      · next x0 hexp =>
        cases h
        exact ⟨mant, ex, i, f, x0, rfl, hm, readExponent_eq_some_iff.mp hexp, digitsNat_eq_spelled _, rfl⟩
  · rintro ⟨mant, ex, i, f, x0, rfl, hm, hex, rfl, rfl⟩
    obtain ⟨hdigit, hpoint⟩ := head_of_exponent hex
    simp only [unsignedDecimal, readMantissa_append hm hdigit hpoint, readExponent_eq_some_iff.mpr hex,
      digitsNat_eq_spelled]

theorem exists_cons_of_unsignedDecimal {t : Text} {d : Nat × Int} (h : unsignedDecimal t = some d) :
    ∃ c rest, t = c :: rest ∧ (isDigit c = true ∨ c = '.') := by
  obtain ⟨mant, ex, i, f, x0, rfl, hm, -⟩ := unsignedDecimal_eq_some_iff.mp h
  obtain ⟨c, rest, rfl, hc⟩ := exists_cons_of_mantissa hm
  exact ⟨c, rest ++ ex, rfl, hc⟩

theorem unsigned_of_unsignedDecimal {t : Text} {d : Nat × Int} (h : unsignedDecimal t = some d) : Unsigned t := by
  obtain ⟨c, rest, rfl, hc | rfl⟩ := exists_cons_of_unsignedDecimal h
  · exact unsigned_cons rest (ne_of_isDigit hc (by decide)) (ne_of_isDigit hc (by decide))
  · exact unsigned_cons rest (by decide) (by decide)

theorem decimal_iff {str : Text} {neg : Bool} {digits : Nat} {exp10 : Int} : Decimal str neg digits exp10 ↔
    (readSign str).1 = neg ∧ unsignedDecimal (readSign str).2 = some (digits, exp10) := by
  rw [← exists_sign_iff (p := fun t => unsignedDecimal t = some (digits, exp10)) fun _ => unsigned_of_unsignedDecimal]
  simp only [unsignedDecimal_eq_some_iff]
  constructor
  · rintro ⟨sg, mant, ex, i, f, x0, rfl, hs, h⟩
    exact ⟨sg, mant ++ ex, List.append_assoc .., hs, mant, ex, i, f, x0, rfl, h⟩
  · rintro ⟨sg, _, rfl, hs, mant, ex, i, f, x0, rfl, h⟩
    exact ⟨sg, mant, ex, i, f, x0, (List.append_assoc ..).symm, hs, h⟩

theorem nonfiniteToken_eq_some_iff {t : Text} {k : NonFinite} : nonfiniteToken t = some k ↔
    ((t.map Char.toLower = "inf".toList ∨ t.map Char.toLower = "infinity".toList) ∧ k = .infinity) ∨
      (t.map Char.toLower = "nan".toList ∧ k = .nan) := by
  have hexcl : t.map Char.toLower = "inf".toList ∨ t.map Char.toLower = "infinity".toList →
      t.map Char.toLower ≠ "nan".toList := by
    rintro (h | h) <;> rw [h] <;> decide
  simp only [nonfiniteToken]
  split_ifs with hinf hnan
  · simpa only [hinf, hexcl hinf, true_and, false_and, or_false, Option.some_inj] using eq_comm
  · simpa only [hinf, iff_true_intro hnan, true_and, false_and, false_or, Option.some_inj] using eq_comm
  · simp only [hinf, hnan, false_and, or_self]

theorem exists_cons_of_nonfiniteToken {t : Text} {k : NonFinite} (h : nonfiniteToken t = some k) :
    ∃ c rest, t = c :: rest ∧ (c.toLower = 'i' ∨ c.toLower = 'n') := by
  cases t with
  | nil => cases h
  | cons c rest =>
    refine ⟨c, rest, rfl, ?_⟩
    obtain ⟨h | h, -⟩ | ⟨h, -⟩ := nonfiniteToken_eq_some_iff.mp h
    · exact .inl (List.cons.inj h).1
    · exact .inl (List.cons.inj h).1
    · exact .inr (List.cons.inj h).1

theorem unsigned_of_nonfiniteToken {t : Text} {k : NonFinite} (h : nonfiniteToken t = some k) : Unsigned t := by
  obtain ⟨c, rest, rfl, hc⟩ := exists_cons_of_nonfiniteToken h
  refine unsigned_cons rest ?_ ?_ <;> rintro rfl <;> revert hc <;> decide

theorem nonfinite_iff {str : Text} {neg : Bool} {k : NonFinite} : Nonfinite str neg k ↔
    (readSign str).1 = neg ∧ nonfiniteToken (readSign str).2 = some k := by
  rw [← exists_sign_iff (p := fun t => nonfiniteToken t = some k) fun _ => unsigned_of_nonfiniteToken]
  simp only [nonfiniteToken_eq_some_iff]
  rfl

/-- A decimal begins with a digit or a point, a token with a letter. -/
theorem unsignedDecimal_of_nonfiniteToken {t : Text} {k : NonFinite} (h : nonfiniteToken t = some k) :
    unsignedDecimal t = none := by
  obtain ⟨c, rest, rfl, hc⟩ := exists_cons_of_nonfiniteToken h
  rw [Option.eq_none_iff_forall_ne_some]
  intro d hd
  obtain ⟨_, _, heq, hc'⟩ := exists_cons_of_unsignedDecimal hd
  obtain ⟨rfl, -⟩ := List.cons.inj heq
  obtain hdig | rfl := hc'
  · exact of_between (p := fun c => ¬ (c.toLower = 'i' ∨ c.toLower = 'n')) hdig (by decide) hc
  · revert hc
    decide

/-! ## The parser -/

section
variable {str : Text}

theorem parseDecimal_of_decimal {digits : Nat} {exp10 : Int}
    (h : unsignedDecimal (readSign str).2 = some (digits, exp10)) :
    parseDecimal str = .value (.encodeDec (readSign str).1 digits exp10) := by
  simp only [parseDecimal, h]

theorem parseDecimal_of_nonfinite {k : NonFinite} (h : nonfiniteToken (readSign str).2 = some k) :
    parseDecimal str = .value (.encodeNf (readSign str).1 k) := by
  simp only [parseDecimal, unsignedDecimal_of_nonfiniteToken h, h]

theorem parseDecimal_of_neither (hd : unsignedDecimal (readSign str).2 = none)
    (hk : nonfiniteToken (readSign str).2 = none) : parseDecimal str = .error .malformedInput := by
  simp only [parseDecimal, hd, hk]

end

/-- Settles O56: after its sign a string is a decimal, or a token, or neither, and no token is a decimal. -/
theorem parserAcceptsExactlyTheGrammar : Obligations.ParserAcceptsExactlyTheGrammar := by
  intro str
  simp only [decimal_iff, nonfinite_iff]
  cases hd : unsignedDecimal (readSign str).2 with
  | some d =>
    have hk : nonfiniteToken (readSign str).2 = none :=
      Option.eq_none_iff_forall_ne_some.mpr fun k hk => by simp [unsignedDecimal_of_nonfiniteToken hk] at hd
    rw [parseDecimal_of_decimal hd]
    refine ⟨fun i => ⟨?_, ?_⟩, fun h _ => absurd ⟨rfl, rfl⟩ (h _ _ _)⟩
    · rintro ⟨⟩
      exact .inl ⟨_, _, _, ⟨rfl, rfl⟩, rfl⟩
    · rintro (⟨_, _, _, ⟨rfl, ⟨⟩⟩, rfl⟩ | ⟨_, _, ⟨-, hk'⟩, -⟩)
      · rfl
      · simp [hk] at hk'
  | none =>
    cases hk : nonfiniteToken (readSign str).2 with
    | some k => simp [parseDecimal_of_nonfinite hk, eq_comm]
    | none => simp [parseDecimal_of_neither hd hk]

end Sys2Proof.Machine
end

section
/-! PROOFS. Errors (60_exceptions.md): which headers are illegal, what a command answers under each of its checks, and that
the status is that of the first check that fails. -/

namespace Sys2Proof.Machine

open Laws.EncodedHeader (opcode)

/-! ## Illegal headers (60_exceptions.md R238) -/

theorem signField_eq_true {h : Header} : signField h = true ↔ h.toNat / 2 ^ 8 % 2 ≠ 0 := by
  simp [signField_eq]

theorem kindField_eq_nan {h : Header} : kindField h = .nan ↔ h.toNat / 2 ^ 9 % 2 ≠ 0 := by
  rw [kindField_eq, Nat.mod_two_ne_zero]
  split <;> simp_all

/-- The map of 30_encoding.md R55 holds the opcodes of the table's rows, which are the commands'. -/
theorem mem_opcodes {n : Nat} :
    n ∈ [0x01, 0x02, 0x03, 0x10, 0x11, 0x12, 0x20, 0x30, 0x31, 0x32] ↔ ∃ i, n = opcode i := by
  have hmap : [0x01, 0x02, 0x03, 0x10, 0x11, 0x12, 0x20, 0x30, 0x31, 0x32] =
      opcodeTable.map fun r => opcField r.pattern := by decide
  have hrow (i : Instr) : opcField (rowOf i).pattern = opcode i :=
    opcField_headerWord false .infinity (opcode_lt i) (by omega)
  simp [hmap, mem_opcodeTable, hrow, eq_comm]

/-- The opcode says which of the header's fields its command does not use (30_encoding.md R56). -/
theorem unused_iff_opcode (i : Instr) :
    (usesSign i = false ↔ opcode i ∉ [0x10, 0x12, 0x30, 0x31, 0x32]) ∧ (usesKind i = false ↔ opcode i ≠ 0x32) ∧
      (usesPreset i = false ↔ opcode i ≠ 0x02) := by
  cases i <;> simp [opcode, usesSign, usesKind, usesPreset]

theorem unusedFieldSet_eq_true {i : Instr} {h : Header} : unusedFieldSet i h = true ↔
    (usesSign i = false ∧ signField h = true) ∨ (usesKind i = false ∧ kindField h = .nan) ∨
      (usesPreset i = false ∧ presetField h ≠ 0) := by
  simp [unusedFieldSet, or_assoc]

/-- Under a command's opcode a header is illegal exactly when it fails one of the two checks that follow. -/
theorem illegalHeader_iff_of_opcode {i : Instr} {h : Header} (ho : opcField h = opcode i) :
    Reference.illegalHeader h.toNat ↔ reservedField h ≠ 0 ∨ unusedFieldSet i h = true := by
  obtain ⟨hs, hk, hp⟩ := unused_iff_opcode i
  have hmem := mem_opcodes.mpr ⟨i, ho⟩
  rw [unusedFieldSet_eq_true, hs, hk, hp, ← ho, signField_eq_true, kindField_eq_nan, presetField_eq, reservedField_eq]
  rw [opcField_eq] at hmem ⊢
  exact or_iff_right (not_not_intro hmem)

/-- An opcode that names no command is outside the map. -/
theorem illegalHeader_of_fromOpcode_eq_none {c : Command} (h : fromOpcode c = none) :
    Reference.illegalHeader c.hdr.toNat := by
  refine .inl fun hmem => ?_
  rw [← opcField_eq] at hmem
  obtain ⟨i, hi⟩ := mem_opcodes.mp hmem
  obtain ⟨j, hj⟩ := exists_fromOpcode hi
  exact Option.some_ne_none j (hj.symm.trans h)

/-- The decoder rejects exactly the illegal headers, by the check that fails first. -/
theorem decodeCommand_rejected_iff (c : Command) :
    (∃ r, decodeCommand c = .rejected r) ↔ Reference.illegalHeader c.hdr.toNat := by
  cases hf : fromOpcode c with
  | none =>
    have hrej : decodeCommand c = .rejected .unknownOpcode := by rw [decodeCommand, hf]
    exact iff_of_true ⟨_, hrej⟩ (illegalHeader_of_fromOpcode_eq_none hf)
  | some i =>
    rw [illegalHeader_iff_of_opcode (opcField_of_fromOpcode hf), decodeCommand, hf]
    dsimp only
    split_ifs with hr hu
    · simp [hr]
    · simp [hu]
    · simp [hr, hu]

/-- Settles O2: the decoder rejects what the header's arithmetic calls illegal, and the step answers a rejection. -/
theorem illegalHeadersAreExactlyRefused : Obligations.IllegalHeadersAreExactlyRefused := by
  intro c
  refine ⟨decodeCommand_rejected_iff c, fun h s rest hp => ?_⟩
  obtain ⟨r, hr⟩ := (decodeCommand_rejected_iff c).mpr h
  exact step_rejected hp hr

/-! ## The answer under each check (60_exceptions.md R233 to R237) -/

theorem presetWidths_eq_none_iff {p : Nat} : presetWidths p = none ↔ 5 ≤ p := by
  match p with
  | 0 | 1 | 2 | 3 | 4 => simp [presetWidths]
  | _ + 5 => simp [presetWidths]

/-- The format check of a command that does not set the format is the guard on FMT.VALID. -/
theorem formatFails_iff_of_writesFormat_eq_false {i : Instr} (hi : writesFormat i = false) (cfg : Config) (f : Fmt) :
    Reference.formatFails cfg f i ↔ f.valid = false := by
  cases i with
  | fmtCustom | fmtPreset => cases hi
  | _ => exact Iff.rfl

section
variable {i : Instr} {s : State}

theorem exec_fmtQuery_of_no_format (hv : s.fmt.valid = false) : exec .fmtQuery s = raise .invalidFormat s := by
  rw [exec, execFmtQuery, withFormat_invalid _ _ hv]

theorem exec_fmtQuery_of_format (hv : s.fmt.valid = true) :
    exec .fmtQuery s = answer (.constants s.fmt.e s.fmt.m (totalBits s.fmt.e s.fmt.m) (bias s.fmt.e)
      (maxExponentField s.fmt.e) minNormalExponentField) s := by
  rw [exec, execFmtQuery, withFormat_valid _ _ hv]

theorem exec_of_formatFails (h : Reference.formatFails s.config s.fmt i) : exec i s = raise .invalidFormat s := by
  cases i with
  | fmtCustom e m => exact exec_fmtCustom_of_not_validFormat (mt validFormat_iff.mp h)
  | fmtPreset p => exact exec_fmtPreset_of_no_widths (presetWidths_eq_none_iff.mpr h) s
  | fmtQuery => exact exec_fmtQuery_of_no_format h
  | classify => exact exec_classify_of_no_format h
  | split => exact exec_split_of_no_format h
  | pack => exact exec_pack_of_no_format h
  | decode => exact exec_decode_of_no_format h
  | encodeRat => exact exec_encodeRat_of_no_format h
  | encodeDec => exact exec_encodeDec_of_no_format h
  | encodeNf => exact exec_encodeNf_of_no_format h

theorem valid_of_not_formatFails (hf : ¬ Reference.formatFails s.config s.fmt i) (hi : writesFormat i = false) :
    s.fmt.valid = true := by
  rwa [formatFails_iff_of_writesFormat_eq_false hi, Bool.not_eq_false] at hf

/-- Two field slots of which one is out of its range (42_classifier.md R122, 41_bitlayout.md R102). -/
theorem inWidth_none_of_malformed {ef sf : Int} {e m : Nat}
    (h : ef < 0 ∨ 2 ^ e ≤ ef ∨ sf < 0 ∨ 2 ^ m ≤ sf) : inWidth ef e = none ∨ inWidth sf m = none :=
  (or_assoc.mpr h).imp inWidth_eq_none.mpr inWidth_eq_none.mpr

theorem exec_of_malformed (hf : ¬ Reference.formatFails s.config s.fmt i) (h : Reference.malformed s.fmt i) :
    exec i s = raise .malformedInput s := by
  have hv := valid_of_not_formatFails hf
  cases i with
  | fmtCustom | fmtPreset | fmtQuery | encodeNf => exact h.elim
  | classify => exact exec_classify_of_no_fields (hv rfl) (inWidth_none_of_malformed h)
  | split => exact exec_split_of_no_layout (hv rfl) (inWidth_eq_none.mpr h)
  | pack => exact exec_pack_of_no_fields (hv rfl) (inWidth_none_of_malformed h)
  | decode => exact exec_decode_of_no_layout (hv rfl) (inWidth_eq_none.mpr h)
  | encodeRat => exact exec_encodeRat_of_negative (hv rfl) (h.imp asNat_of_neg asNat_of_neg)
  | encodeDec => exact exec_encodeDec_of_negative (hv rfl) (asNat_of_neg h)

theorem exec_of_unrepresentable (hf : ¬ Reference.formatFails s.config s.fmt i) (hm : ¬ Reference.malformed s.fmt i)
    (h : Reference.unrepresentable s.config s.fmt i) : exec i s = raise .unrepresentableInput s := by
  have hv := valid_of_not_formatFails hf
  cases i with
  | encodeRat sign num den =>
    cases (h : den = 0)
    obtain ⟨hn, -⟩ := not_or.mp hm
    exact exec_encodeRat_of_zero_den (hv rfl) (asNat_of_nonneg (not_lt.mp hn)) rfl
  | encodeNf => exact exec_encodeNf_of_unrepresentable (hv rfl) h
  | fmtCustom | fmtPreset | fmtQuery | classify | split | pack | decode | encodeDec => exact h.elim

/-- Two field slots that are both in range. -/
theorem inWidth_some_of_not_malformed {ef sf : Int} {e m : Nat}
    (h : ¬(ef < 0 ∨ 2 ^ e ≤ ef ∨ sf < 0 ∨ 2 ^ m ≤ sf)) : inWidth ef e = some ef.toNat ∧ inWidth sf m = some sf.toNat := by
  simp only [not_or, not_lt, not_le] at h
  obtain ⟨hef, heflt, hsf, hsflt⟩ := h
  exact ⟨inWidth_of_range hef heflt, inWidth_of_range hsf hsflt⟩

/-- A layout slot that is in range. -/
theorem inWidth_some_of_layout {b : Int} {t : Nat} (h : ¬(b < 0 ∨ 2 ^ t ≤ b)) : inWidth b t = some b.toNat := by
  obtain ⟨h0, hlt⟩ := not_or.mp h
  exact inWidth_of_range (not_lt.mp h0) (not_le.mp hlt)

/-- A command whose checks all pass answers OK, with FMT written or not. -/
theorem exec_of_no_failure (hf : ¬ Reference.formatFails s.config s.fmt i) (hm : ¬ Reference.malformed s.fmt i)
    (hu : ¬ Reference.unrepresentable s.config s.fmt i) :
    ∃ (p : Payload) (t : State), exec i s = answer p t ∧ t.responses = s.responses := by
  have hv := valid_of_not_formatFails hf
  cases i with
  | fmtCustom e m =>
    exact ⟨_, _, exec_fmtCustom_of_validFormat (validFormat_iff.mpr (not_not.mp hf)), rfl⟩
  | fmtPreset p =>
    obtain ⟨w, hw⟩ := Option.ne_none_iff_exists'.mp (mt presetWidths_eq_none_iff.mp hf)
    exact ⟨_, _, exec_fmtPreset_of_widths hw s, rfl⟩
  | fmtQuery => exact ⟨_, s, exec_fmtQuery_of_format (hv rfl), rfl⟩
  | classify =>
    obtain ⟨hx, hy⟩ := inWidth_some_of_not_malformed hm
    exact ⟨_, s, exec_classify_of_fields (hv rfl) hx hy, rfl⟩
  | split => exact ⟨_, s, exec_split_of_layout (hv rfl) (inWidth_some_of_layout hm), rfl⟩
  | pack =>
    obtain ⟨hx, hy⟩ := inWidth_some_of_not_malformed hm
    exact ⟨_, s, exec_pack_of_fields (hv rfl) hx hy, rfl⟩
  | decode => exact ⟨_, s, exec_decode_of_layout (hv rfl) (inWidth_some_of_layout hm), rfl⟩
  | encodeRat sign num den =>
    obtain ⟨hn, hd⟩ := not_or.mp hm
    have hd0 : den.toNat ≠ 0 := fun h0 => hu (le_antisymm (Int.toNat_eq_zero.mp h0) (not_lt.mp hd))
    exact ⟨_, s, exec_encodeRat_of_fraction (hv rfl) (asNat_of_nonneg (not_lt.mp hn)) (asNat_of_nonneg (not_lt.mp hd))
      hd0, rfl⟩
  | encodeDec => exact ⟨_, s, exec_encodeDec_of_digits (hv rfl) (asNat_of_nonneg (not_lt.mp hm)), rfl⟩
  | encodeNf sign k =>
    obtain ⟨hon, hnan⟩ := not_or.mp hu
    rw [Bool.not_eq_false] at hon
    cases k with
    | infinity => exact ⟨_, s, exec_encodeNf_infinity (hv rfl) hon, rfl⟩
    | nan => exact ⟨_, s, exec_encodeNf_nan (hv rfl) hon fun h0 => hnan ⟨rfl, h0⟩, rfl⟩

end

/-- Settles O19: the guard is the format check of such a command. -/
theorem guardedCommandsNeedAFormat : Obligations.GuardedCommandsNeedAFormat := fun _ _ hc hp hv =>
  exec_of_formatFails ((formatFails_iff_of_writesFormat_eq_false (writesFormat_eq_false hc hp) _ _).mpr hv)

/-! ## The order of the checks (60_exceptions.md R236) -/

/-- The status of the one response a result adds. -/
theorem status_eq_of_respond {s t u : State} {st : Status} {p : Payload} {r : Response}
    (hr : .next t = respond st p u) (hu : u.responses = s.responses) (ht : t.responses = s.responses ++ [r]) :
    r.status = st := by
  cases hr
  simp only [hu, List.append_cancel_left_eq, List.cons.injEq, and_true] at ht
  rw [← ht]

/-- Settles O20: the step adds one response, and each check gives its status. -/
theorem statusIsThatOfTheFirstFailingCheck : Obligations.StatusIsThatOfTheFirstFailingCheck := by
  intro s c rest h
  obtain ⟨f, r, hs, -⟩ := step_fmtEffect h
  refine ⟨_, r, hs, rfl, fun hill => ?_, fun i hd => ?_⟩
  · obtain ⟨-, hrefused⟩ := illegalHeadersAreExactlyRefused c
    exact status_eq_of_respond (u := { s with pending := rest }) (hs.symm.trans (hrefused hill s rest h)) rfl rfl
  · have hx := hs.symm.trans (step_command h hd)
    refine ⟨fun hf => ?_, fun hf hm => ?_, fun hf hm hu => ?_, fun hf hm hu => ?_⟩
    · exact status_eq_of_respond (hx.trans (exec_of_formatFails hf)) rfl rfl
    · exact status_eq_of_respond (hx.trans (exec_of_malformed hf hm)) rfl rfl
    · exact status_eq_of_respond (hx.trans (exec_of_unrepresentable hf hm hu)) rfl rfl
    · obtain ⟨p, t, ht, hresp⟩ := exec_of_no_failure (s := { s with pending := rest }) hf hm hu
      exact status_eq_of_respond (hx.trans ht) hresp rfl

end Sys2Proof.Machine
end

section
/-! PROOFS. Reset and the host's copy of the total width (70_reset_and_hazards.md R260, R263): that the
copy moves with FMT or both stay, and what a reset leaves of the block. -/

namespace Sys2Proof.Machine

/-! ## The host's copy of the total width (70_reset_and_hazards.md R263) -/

/-- Whether the command is one of the three after whose OK the host takes the total width anew. -/
def ReadsWidth (i : Instr) : Prop := (∃ e m, i = .fmtCustom e m) ∨ (∃ p, i = .fmtPreset p) ∨ i = .fmtQuery

/-- Any other command leaves the copy as it was. -/
theorem trackWidth_of_not_readsWidth (copy : Option Nat) {i : Instr} (r : Response) (h : ¬ ReadsWidth i) :
    trackWidth copy i r = copy :=
  trackWidth_of_other copy r
    (writesFormat_eq_false (fun e m hi => h (.inl ⟨e, m, hi⟩)) fun p hi => h (.inr (.inl ⟨p, hi⟩)))
    fun hi => h (.inr (.inr hi))

section
variable {i : Instr} {s t : State} {r : Response}

/-- What a meaning may do to FMT, in terms of the response it is known to add. -/
theorem fmtEffect_of_exec (hx : exec i s = .next t) (hr : t.responses = s.responses ++ [r]) :
    FmtEffect (.command i) s.fmt t.fmt r := by
  obtain ⟨f, r', he, heffect⟩ := exec_fmtEffect i s
  cases he.symm.trans hx
  cases List.append_cancel_left hr
  exact heffect

/-- After an OK of one of the three commands the block has a format, and the copy is its total width. -/
theorem trackWidth_of_readsWidth_ok (copy : Option Nat) (hx : exec i s = .next t)
    (hr : t.responses = s.responses ++ [r]) (hi : ReadsWidth i) (hok : r.status = .ok) :
    t.fmt.valid = true ∧ trackWidth copy i r = some (totalBits t.fmt.e t.fmt.m) := by
  have heffect := fmtEffect_of_exec hx hr
  obtain ⟨st, p⟩ := r
  cases (hok : st = .ok)
  obtain ⟨e, m, rfl⟩ | ⟨id, rfl⟩ | rfl := hi
  · obtain ⟨hv, rfl, rfl⟩ := heffect.custom_widths e m rfl rfl
    exact ⟨hv, rfl⟩
  · obtain ⟨hv, hw⟩ := heffect.preset_widths id rfl rfl
    have hwidths : presetWidths id = some (t.fmt.e, t.fmt.m) := presetWidths_of_mem_presets _ hw
    exact ⟨hv, by rw [trackWidth_fmtPreset_ok, hwidths]; rfl⟩
  · obtain ⟨hv, he⟩ | ⟨-, he⟩ := exec_fmtQuery_cases s
    · cases he.symm.trans hx
      cases List.append_cancel_left hr
      exact ⟨hv, rfl⟩
    · cases he.symm.trans hx
      cases List.append_cancel_left hr

/-- A command that is none of the three, or not answered OK, leaves FMT as it was. -/
theorem exec_keeps_fmt (hx : exec i s = .next t) (hr : t.responses = s.responses ++ [r])
    (h : ReadsWidth i → r.status ≠ .ok) : t.fmt = s.fmt := by
  have heffect := fmtEffect_of_exec hx hr
  by_contra hne
  obtain ⟨e, m, ⟨⟩⟩ | ⟨p, ⟨⟩⟩ := heffect.written_by_format_command hne
  · exact hne (heffect.kept_of_not_ok (h (.inl ⟨e, m, rfl⟩)))
  · exact hne (heffect.kept_of_not_ok (h (.inr (.inl ⟨p, rfl⟩))))

/-- The copy and FMT move together: the block has a format and the copy is its total width, or both are what they
were. -/
theorem trackWidth_cases (copy : Option Nat) (hx : exec i s = .next t) (hr : t.responses = s.responses ++ [r]) :
    (t.fmt.valid = true ∧ trackWidth copy i r = some (totalBits t.fmt.e t.fmt.m)) ∨
    (t.fmt = s.fmt ∧ trackWidth copy i r = copy) := by
  by_cases hi : ReadsWidth i
  · by_cases hok : r.status = .ok
    · exact .inl (trackWidth_of_readsWidth_ok copy hx hr hi hok)
    · exact .inr ⟨exec_keeps_fmt hx hr fun _ => hok, trackWidth_of_not_ok copy i hok⟩
  · exact .inr ⟨exec_keeps_fmt hx hr fun h => absurd h hi, trackWidth_of_not_readsWidth copy r hi⟩

end

/-- Settles O60: a copy moves with FMT, and a reset leaves no format and no copy. -/
theorem hostWidthCopyFollowsTheBlock : Obligations.HostWidthCopyFollowsTheBlock := by
  refine ⟨fun i s t r copy hx hr => ⟨fun hi hok => ?_, fun _ hok => trackWidth_of_not_ok copy i hok,
    trackWidth_of_not_readsWidth copy r, fun hright habsent => ?_⟩, fun s _ rest copy hp => ?_⟩
  · obtain ⟨-, hwidth⟩ := trackWidth_of_readsWidth_ok copy hx hr hi hok
    exact hwidth
  · obtain ⟨hv, hwidth⟩ | ⟨hfmt, hcopy⟩ := trackWidth_cases copy hx hr
    · rw [hv, hwidth]
      exact ⟨fun _ w hw => (Option.some.inj hw).symm, fun h => nomatch h⟩
    · rw [hfmt, hcopy]
      exact ⟨hright, habsent⟩
  · exact ⟨_, step_reset hp, rfl, rfl⟩

/-! ## Reset (70_reset_and_hazards.md R260) -/

/-- Settles O17: both steps take a reset, with `rest` or nothing behind it. -/
theorem resetInvalidatesTheFormat : Obligations.ResetInvalidatesTheFormat :=
  ⟨fun _ _ _ hp => ⟨_, step_reset hp, rfl, rfl, rfl, rfl⟩,
    fun s => ⟨_, step_reset (assertReset_pending s), rfl, rfl, rfl, rfl⟩⟩

end Sys2Proof.Machine
end
